-- ==== Sys2Proof/Word.lean ====
section
/-! DEFINITION. The word types of the CORE (spec/00_scope.md R6, R7, R10; spec/10_state.md R21). A register's value is an
unsigned integer in [0, 2^N) (R21) with N a parameter of the machine (R5): it is held as a Nat, `State.Inv` says it is
below 2^N, and every arithmetic result is narrowed by `wrapN`. -/

namespace Sys2Proof

/-- A memory cell, an opcode byte or an operand byte: 8 bits, unsigned (R10, R33). -/
abbrev Byte := BitVec 8

/-- The program counter's value: an unsigned register of PCW = 9 bits (R7, R27). -/
abbrev Pc := BitVec 9

/-- The index of a register, 0 to 7 (R21). -/
abbrev RegIdx := Fin 8

end Sys2Proof
end

