-- ==== Sys2Proof/Config.lean ====
section
/-! DEFINITION. What an implementation fixes: the register width N and the six opcode bytes, the only parameters of
the machine (spec/00_scope.md R5, R8, R9), and the constants of R6. The machine has no free value
(spec/93_implementation_defined.md Part 1), so this file holds no opaque constant. -/

namespace Sys2Proof

/-- The six registered handlers the dispatcher can select (R2, R88). -/
inductive Opcode where
  | hlt | ldi | prn | mul | push | pop
  deriving DecidableEq, Repr

/-- An instruction's length in bytes is a function of its opcode alone (R92; the width column of R86). -/
def Opcode.width : Opcode → Nat
  | .hlt => 1
  | .ldi => 3
  | .prn => 2
  | .mul => 3
  | .push => 2
  | .pop => 2

/-- The six parameters `OPC_*` (R8). -/
structure OpcodeMap where
  hlt  : Byte
  ldi  : Byte
  prn  : Byte
  mul  : Byte
  push : Byte
  pop  : Byte
  deriving DecidableEq, Repr

/-- The byte that stands for a handler. -/
def OpcodeMap.byteOf (o : OpcodeMap) : Opcode → Byte
  | .hlt => o.hlt
  | .ldi => o.ldi
  | .prn => o.prn
  | .mul => o.mul
  | .push => o.push
  | .pop => o.pop

/-- The six registered bytes, in the order of the table of R86. -/
def OpcodeMap.bytes (o : OpcodeMap) : List Byte := [o.hlt, o.ldi, o.prn, o.mul, o.push, o.pop]

/-- The constraints of R8: pairwise distinct, and none is 0x00 (R90). -/
abbrev OpcodeMap.WF (o : OpcodeMap) : Prop := o.bytes.Nodup ∧ (0 : Byte) ∉ o.bytes

/-- The default values of R86. UNVERIFIED (log entry 4): the spec takes them from general knowledge (D8). -/
def OpcodeMap.defaults : OpcodeMap :=
  { hlt := 0x01, ldi := 0x82, prn := 0x47, mul := 0xA2, push := 0x45, pop := 0x46 }

/-- The parameters of the model: N and the `OPC_*` values; "No other parameter exists" (R9). -/
structure Params where
  N   : Nat
  opc : OpcodeMap
  deriving DecidableEq, Repr

/-- R5: `N >= 8`; R8: the constraints on the opcode bytes. -/
abbrev Params.WF (p : Params) : Prop := 8 ≤ p.N ∧ p.opc.WF

/-- The default instantiation: N = 8 (R5) and the default opcode bytes (R86). -/
def Params.defaults : Params := { N := 8, opc := OpcodeMap.defaults }

/-- `MEMSIZE`, the number of memory cells (R6). -/
abbrev Config.memSize : Nat := 256

/-- `SPIDX`, the register that is the stack pointer (R6, R24). -/
abbrev Config.spIdx : RegIdx := 7

/-- `SP_INIT`, the stack pointer's value after reset (R6, R36). -/
abbrev Config.spInit : Nat := 0xF4

/-- `LOAD_BASE`, the address of the first program byte (R6). -/
abbrev Config.loadBase : Nat := 0

end Sys2Proof
end

