-- ==== Sys2Proof/Machine/State.lean ====
section
/-! DEFINITION. The state of the CORE as plain data (spec/10_state.md R20 to R36), the reasons it can stop, and the
state after reset. -/

namespace Sys2Proof.Machine

/-- The fault kinds the CORE can raise (60_exceptions.md R180). Each is raised by the instruction being executed, or
by `load`, and is recorded in `State.fault`. -/
inductive FaultKind where
  /-- A memory address outside [0, 256) (R181). -/
  | outOfBounds
  /-- A register index outside [0, 8) (R182). -/
  | invalidRegister
  /-- The ALU was asked for an operation it does not implement (R183). -/
  | unsupportedOperation
  /-- The fetched byte has no registered handler (R184). -/
  | unknownOpcode
  /-- A value too large for a memory cell (R185). -/
  | valueOutOfRange
  deriving DecidableEq, Repr

/-- The ALU's operation names: ADD, MUL and anything else (43_alu.md R150; no numeric encoding, D22). -/
inductive AluOp where
  | add
  | mul
  | other (name : String)
  deriving DecidableEq, Repr

/-- What `raise K(info)` is given: the kind and its information (60_exceptions.md R187). Only the kind is recorded in
the state (R188). -/
inductive FaultInfo where
  | outOfBounds (address : Nat)
  | invalidRegister (index : Nat)
  | unsupportedOperation (op : AluOp)
  | unknownOpcode (op : Byte)
  | valueOutOfRange (value : Nat)
  deriving DecidableEq, Repr

/-- What the surroundings have done since reset. Idle and Halted "are told apart only by history" (40_loop_dispatch.md
R110), and a second `load` is refused (93_implementation_defined.md U8). DESIGN CHOICE, safe (log entry 2). -/
inductive Phase where
  /-- Neither `load` nor `start` has happened. -/
  | fresh
  /-- `load` has happened, `start` has not. -/
  | loaded
  /-- `start` has happened. -/
  | started
  deriving DecidableEq, Repr

/-- The memory: (address, byte) pairs, addresses strictly rising and below 256, no byte equal to 0, which is what an
unlisted cell holds ("zero-initialized", R33). `Memory.wf` states the form. -/
abbrev Memory := List Host.Cell

/-- The complete state (R20), with two fields of the model's own: `params` and `phase`. -/
structure State where
  /-- The parameters N and `OPC_*` (R5, R8), arguments of the model that nothing changes. Log entry 1. -/
  params  : Params
  /-- The register file: 8 unsigned integers in [0, 2^N) (R21); `x[7]` is the stack pointer (R24). -/
  x       : Vector Nat 8
  /-- The program counter (R27). -/
  pc      : Pc
  /-- The running flag (R30). -/
  running : Bool
  /-- The fault status (R31). -/
  fault   : Option FaultKind
  /-- The output channel, oldest element first (R32). -/
  out     : List Nat
  /-- The memory (R33). -/
  mem     : Memory
  /-- What the surroundings have done since reset (R110). Log entry 2. -/
  phase   : Phase
  deriving DecidableEq, Repr

/-- Why no step is defined (40_loop_dispatch.md R112, R115). Each is raised by `step` alone, never by a meaning, and
is the spec's own `stuck` (93_implementation_defined.md U10): safe. An instruction that raises is NOT one of these:
it answers a next state whose `fault` field is set (60_exceptions.md R190). -/
inductive Fault where
  /-- Raised by `step` on a machine that has not been started (R110, Idle). Safe: the spec defines no step. -/
  | idle
  /-- Raised by `step` after HLT has executed (R110, Halted). Safe: the spec defines no step. -/
  | halted
  /-- Raised by `step` once an instruction, or `load`, has raised the kind (R110, Faulted; R192). Safe: the spec
  defines no step. -/
  | faulted (kind : FaultKind)
  deriving DecidableEq, Repr

/-- Inputs the model gives no meaning. No meaning of an instruction refuses. -/
inductive Refusal where
  /-- An instruction without a meaning yet; no arm of `exec` answers it. Safe. -/
  | notModelled (mnemonic : String)
  /-- Raised by the `load` event on a machine that is not Idle (93_implementation_defined.md U8). Safe. -/
  | loadNotIdle
  /-- Raised by a second `load` before `start` (70_reset_and_hazards.md R213; U8). Safe. -/
  | secondLoad
  deriving DecidableEq, Repr

/-- The state after reset of a machine with parameters `p` (R36; 70_reset_and_hazards.md R210). -/
def State.resetFor (p : Params) : State where
  params := p
  x := #v[0, 0, 0, 0, 0, 0, 0, Config.spInit]
  pc := 0
  running := false
  fault := none
  out := []
  mem := []
  phase := .fresh

/-- The state after reset of the default instantiation (R5, R36, R86). -/
def State.reset : State := State.resetFor Params.defaults

end Sys2Proof.Machine
end

