-- ==== Sys2Proof/Machine/Flags.lean ====
section
/-! DEFINITION. The machine has no flag, condition code, carry or overflow bit (spec/10_state.md R34), so no
instruction computes one: what would be a carry or an overflow is dropped when a result is reduced modulo 2^N. This
file holds that reduction and the four arithmetic laws of spec/43_alu.md R155. -/

namespace Sys2Proof.Machine

/-- Reduction modulo 2^N: "the bits above bit N-1 of a result are dropped" (R34, R155). -/
def wrapN (N v : Nat) : Nat := v % 2 ^ N

/-- `(a * b) mod 2^N` (R151). -/
def mulN (N : Nat) (a b : Nat) : Nat := wrapN N (a * b)

/-- `(a + b) mod 2^N` (R152). -/
def addN (N : Nat) (a b : Nat) : Nat := wrapN N (a + b)

/-- `(s - 1) mod 2^N`, so 0 gives 2^N - 1 (44_stack.md R166). -/
def decN (N : Nat) (s : Nat) : Nat := wrapN N (s + (2 ^ N - 1))

/-- `(s + 1) mod 2^N`, so 2^N - 1 gives 0 (44_stack.md R167). -/
def incN (N : Nat) (s : Nat) : Nat := wrapN N (s + 1)

end Sys2Proof.Machine
end

