-- ==== Sys2Proof/Machine/Operands.lean ====
section
/-! DEFINITION. The operand forms (spec/30_encoding.md R84, R85): a register operand, checked as a whole byte against
[0, 8), and an 8-bit immediate, zero-extended. There is no other form: no addressing mode, no displacement. -/

namespace Sys2Proof.Machine

/-- `RegCheck(i)`: `if i >= 8 then raise InvalidRegister(i)` (10_state.md R23). -/
def regCheck (i : Nat) : Except FaultInfo RegIdx :=
  if h : i < 8 then .ok ⟨i, h⟩ else .error (.invalidRegister i)

/-- `zext_N`: a byte widened to a register value keeps its numeric value (R85; no sign extension anywhere, D4). -/
def zextN (b : Byte) : Nat := b.toNat

end Sys2Proof.Machine
end

