-- ==== Sys2Proof/Syntax.lean ====
section
/-! DEFINITION. The instructions as syntax: one constructor per row of spec/opcode_table.json. A register operand is
the whole operand byte (spec/30_encoding.md R84): the handler, not the decoder, checks it against [0, 8). -/

namespace Sys2Proof

/-- The six instructions of R2, with their operand bytes in the order they stand in memory (R81 to R83, R93). -/
inductive Instr where
  | hlt
  | ldi (r imm : Byte)
  | prn (r : Byte)
  | mul (a b : Byte)
  | push (r : Byte)
  | pop (r : Byte)
  deriving DecidableEq, Repr

/-- The handler that carries the instruction out. -/
def Instr.opcode : Instr → Opcode
  | .hlt => .hlt
  | .ldi _ _ => .ldi
  | .prn _ => .prn
  | .mul _ _ => .mul
  | .push _ => .push
  | .pop _ => .pop

/-- The instruction's operand bytes, at pc + 1 and pc + 2 (R80). -/
def Instr.operands : Instr → List Byte
  | .hlt => []
  | .ldi r imm => [r, imm]
  | .prn r => [r]
  | .mul a b => [a, b]
  | .push r => [r]
  | .pop r => [r]

/-- The operand bytes that are register indices (R82, R83): LDI's second operand is not one. -/
def Instr.regOperands : Instr → List Byte
  | .hlt => []
  | .ldi r _ => [r]
  | .prn r => [r]
  | .mul a b => [a, b]
  | .push r => [r]
  | .pop r => [r]

/-- The instruction's length in bytes (R80, R92). -/
def Instr.width (i : Instr) : Nat := i.opcode.width

end Sys2Proof
end

