-- ==== Sys2Proof/WellFormed.lean ====
section
/-! DEFINITION. Which instructions are well formed: every register operand names a register (spec/10_state.md R23,
spec/30_encoding.md R84). An ill-formed instruction still decodes and runs: it raises InvalidRegister. -/

namespace Sys2Proof

/-- Whether a register operand byte is in [0, 8) (R23). -/
def regOperandOk (b : Byte) : Bool := decide (b.toNat < 8)

/-- Every register operand of the instruction is in [0, 8). -/
def Instr.wf (i : Instr) : Bool := i.regOperands.all regOperandOk

end Sys2Proof
end

