-- ==== Sys2Proof/Decode.lean ====
section
/-! DEFINITION. The decoder and the encoder (spec/30_encoding.md R80 to R92, R95, R97). The dispatcher compares the
whole opcode byte; the operand bytes are read after it, in ascending order, by the handler's format. -/

namespace Sys2Proof

/-- Why a list of bytes is no instruction. -/
inductive DecodeError where
  /-- The byte `k` places after the opcode byte is not there (0: the opcode byte itself). -/
  | missingByte (k : Nat)
  /-- The first byte has no registered handler (R90). -/
  | unknownOpcode (op : Byte)
  deriving DecidableEq, Repr

/-- The dispatcher: the six-way match on all 8 bits of the opcode byte (R88); `none` is UnknownOpcode (R90). -/
def dispatch (o : OpcodeMap) (op : Byte) : Option Opcode :=
  if op = o.hlt then some .hlt
  else if op = o.ldi then some .ldi
  else if op = o.prn then some .prn
  else if op = o.mul then some .mul
  else if op = o.push then some .push
  else if op = o.pop then some .pop
  else none

/-- Format F2 (R82): one operand byte, at pc + 1. -/
def readF2 {ε : Type} (rd : Nat → Except ε Byte) (mk : Byte → Instr) : Except ε Instr :=
  match rd 1 with
  | .error e => .error e
  | .ok b => .ok (mk b)

/-- Format F3 (R83): two operand bytes, at pc + 1 and then pc + 2. -/
def readF3 {ε : Type} (rd : Nat → Except ε Byte) (mk : Byte → Byte → Instr) : Except ε Instr :=
  match rd 1 with
  | .error e => .error e
  | .ok b =>
    match rd 2 with
    | .error e => .error e
    | .ok c => .ok (mk b c)

/-- The operand bytes a handler reads, by its format (R81 to R83, R86). -/
def readOperands {ε : Type} (rd : Nat → Except ε Byte) : Opcode → Except ε Instr
  | .hlt => .ok .hlt
  | .ldi => readF3 rd .ldi
  | .prn => readF2 rd .prn
  | .mul => readF3 rd .mul
  | .push => readF2 rd .push
  | .pop => readF2 rd .pop

/-- The one decoder, over any way `rd` of reading the byte at an offset from the opcode byte: the opcode byte first,
then the dispatch, then the operand bytes in ascending order (R88, R92; the order of 60_exceptions.md R189). -/
def decodeFrom {ε : Type} (o : OpcodeMap) (unknown : Byte → ε) (rd : Nat → Except ε Byte) : Except ε Instr :=
  match rd 0 with
  | .error e => .error e
  | .ok op =>
    match dispatch o op with
    | none => .error (unknown op)
    | some h => readOperands rd h

/-- The byte at offset `k` of a list of bytes. -/
def byteAt (bs : List Byte) (k : Nat) : Except DecodeError Byte :=
  match bs[k]? with
  | some b => .ok b
  | none => .error (.missingByte k)

/-- Decode the instruction at the head of a list of bytes; answers it with the bytes that follow it. -/
def decode (o : OpcodeMap) (bs : List Byte) : Except DecodeError (Instr × List Byte) :=
  match decodeFrom o .unknownOpcode (byteAt bs) with
  | .error e => .error e
  | .ok i => .ok (i, bs.drop i.width)

/-- The bytes of an instruction at ascending addresses: opcode, then operands (R95). -/
def encode (o : OpcodeMap) (i : Instr) : List Byte := o.byteOf i.opcode :: i.operands

/-- The `k`-th byte of a number whose bits are counted from the first byte's least significant bit. -/
def byteOfNat (w k : Nat) : Byte := BitVec.ofNat 8 (w / 256 ^ k)

/-- The bytes of an instruction whose low `nbits` bits are those of `w` and whose bits above are 0, the first byte
first, up to the longest instruction (3 bytes). -/
def tableBytes (nbits w : Nat) : List Byte :=
  [byteOfNat (w % 2 ^ nbits) 0, byteOfNat (w % 2 ^ nbits) 1, byteOfNat (w % 2 ^ nbits) 2]

/-- The instruction the decoder reads from a word of spec/opcode_table.json, numbered as the table numbers it, with
the table's own opcode bytes (the defaults of R86). -/
def decodeTableWord (nbits w : Nat) : Option Instr :=
  match decode OpcodeMap.defaults (tableBytes nbits w) with
  | .ok (i, _) => some i
  | .error _ => none

end Sys2Proof
end

