-- ==== Sys2Proof/Machine/Ops.lean ====
section
/-! DEFINITION. The operations every meaning is written over: the memory array and its two access primitives
(spec/20_memory.md R52, R53), the register file (spec/10_state.md R22), the program-counter controller
(spec/40_loop_dispatch.md R117) and raising a fault (spec/60_exceptions.md R190). There is no return from a fault
(R192), so no operation undoes one. -/

namespace Sys2Proof.Machine

/-- The form of a memory whose addresses are all at least `lo`. -/
def Memory.wfFrom : Nat → Memory → Bool
  | _, [] => true
  | lo, (a, v) :: m => decide (lo ≤ a) && decide (a < Config.memSize) && decide (v ≠ 0) && Memory.wfFrom (a + 1) m

/-- The canonical form: addresses strictly rising and below 256, no listed byte equal to 0. -/
def Memory.wf (m : Memory) : Bool := Memory.wfFrom 0 m

/-- The byte a cell holds: the listed one, or 0, "zero-initialized" (R33), where none is listed. -/
def Memory.get : Memory → Nat → Byte
  | [], _ => 0
  | (b, v) :: m, a => if a = b then v else Memory.get m a

/-- Put the entry for address `a` in front of the rest, unless it is what an unlisted cell holds. -/
def Memory.entry (a : Nat) (v : Byte) (m : Memory) : Memory := if v = 0 then m else (a, v) :: m

/-- Replace the byte of one cell, in canonical form. -/
def Memory.set : Memory → Nat → Byte → Memory
  | [], a, v => Memory.entry a v []
  | (b, w) :: m, a, v =>
    if a < b then Memory.entry a v ((b, w) :: m)
    else if a = b then Memory.entry a v m
    else (b, w) :: Memory.set m a v

/-- `MemRead(a, 1)` (R52). -/
def memRead (m : Memory) (a : Nat) : Except FaultInfo Byte :=
  if a < Config.memSize then .ok (Memory.get m a) else .error (.outOfBounds a)

/-- `MemWrite(a, 1, v)`: the address check comes before the value check (R53). -/
def memWrite (m : Memory) (a v : Nat) : Except FaultInfo Memory :=
  if a < Config.memSize then
    if v < 256 then .ok (Memory.set m a (BitVec.ofNat 8 v)) else .error (.valueOutOfRange v)
  else .error (.outOfBounds a)

/-- The read `x[i]` (R22). -/
def State.reg (s : State) (i : RegIdx) : Nat := s.x[i]

/-- The write `x[i] <- v`: it changes no other register (R22). -/
def State.setReg (s : State) (i : RegIdx) (v : Nat) : State := { s with x := s.x.set i v }

/-- The stack pointer, `x[7]` (R24). -/
def State.sp (s : State) : Nat := s.reg Config.spIdx

/-- `pc <- pc + width` (R117 (b)); never wraps after a fetch that succeeded (R118). -/
def State.advance (s : State) (width : Nat) : State := { s with pc := s.pc + BitVec.ofNat 9 width }

/-- The recorded kind of a fault (R188). -/
def FaultInfo.kind : FaultInfo → FaultKind
  | .outOfBounds _ => .outOfBounds
  | .invalidRegister _ => .invalidRegister
  | .unsupportedOperation _ => .unsupportedOperation
  | .unknownOpcode _ => .unknownOpcode
  | .valueOutOfRange _ => .valueOutOfRange

/-- The code of a fault status (R187), for a status output. -/
def FaultKind.code : Option FaultKind → Nat
  | none => 0
  | some .outOfBounds => 1
  | some .invalidRegister => 2
  | some .unsupportedOperation => 3
  | some .unknownOpcode => 4
  | some .valueOutOfRange => 5

/-- Fault entry, `raise K(info)`: `fault <- K`, and nothing else changes (R190). -/
def raise (s : State) (e : FaultInfo) : State := { s with fault := some e.kind }

/-- How an instruction ends: with the state its `commit:` part leaves, or by raising, with nothing written
(00_scope.md R13). Both are next states. -/
def complete (s : State) : Except FaultInfo State → Host.Outcome State Fault Refusal
  | .ok t => .next t
  | .error e => .next (raise s e)

/-- The bytes of memory from the program counter on, as many as the longest instruction has and memory holds. -/
def State.codeBytes (s : State) : List Byte :=
  ((List.range 3).map (s.pc.toNat + ·)).filter (· < Config.memSize) |>.map s.mem.get

end Sys2Proof.Machine
end

