-- ==== Sys2Proof/Machine/Alu.lean ====
section
/-! DEFINITION. The ALU as a component and the MUL instruction (spec/43_alu.md R150 to R154). -/

namespace Sys2Proof.Machine

/-- The function of a supported operation (R151, R152); `none` for any other name (R153). -/
def AluOp.compute : AluOp → Option (Nat → Nat → Nat → Nat)
  | .add => some addN
  | .mul => some mulN
  | .other _ => none

/-- `ALU(op, d, s)`: the operation is checked first, then the destination index, then the source index; both
registers are read before the destination is written (R150). -/
def alu (op : AluOp) (d s : Nat) (st : State) : Except FaultInfo State :=
  match op.compute with
  | none => .error (.unsupportedOperation op)
  | some f => do
    let di ← regCheck d
    let si ← regCheck s
    .ok (st.setReg di (f st.params.N (st.reg di) (st.reg si)))

/-- The ALU's interface driven directly: the only way to reach ADD and UnsupportedOperation (R152, R183). -/
def applyAlu (op : AluOp) (d s : Nat) (st : State) : Host.Outcome State Fault Refusal :=
  complete st (alu op d s st)

/-- MUL's handler after its operand reads (R154). -/
def mulCore (a b : Byte) (s : State) : Except FaultInfo State := do
  let t ← alu .mul a.toNat b.toNat s
  .ok (t.advance 3)

/-- MUL a, b: `x[a] <- (x[a] * x[b]) mod 2^N`, `pc <- pc + 3` (R154). -/
def execMul (a b : Byte) (s : State) : Host.Outcome State Fault Refusal := complete s (mulCore a b s)

end Sys2Proof.Machine
end

