-- ==== Sys2Proof/Machine/Data.lean ====
section
/-! DEFINITION. The data instructions LDI and PRN (spec/42_data.md R140, R142). -/

namespace Sys2Proof.Machine

/-- LDI's handler after its operand reads (R140). -/
def ldiCore (r imm : Byte) (s : State) : Except FaultInfo State := do
  let i ← regCheck r.toNat
  .ok ((s.setReg i (zextN imm)).advance 3)

/-- LDI r, imm: `x[r] <- zext_N(imm)`, `pc <- pc + 3` (R140). -/
def execLdi (r imm : Byte) (s : State) : Host.Outcome State Fault Refusal := complete s (ldiCore r imm s)

/-- The append to the output channel; it cannot fail or block (R32). -/
def State.emit (s : State) (v : Nat) : State := { s with out := s.out ++ [v] }

/-- PRN's handler after its operand read (R142). -/
def prnCore (r : Byte) (s : State) : Except FaultInfo State := do
  let i ← regCheck r.toNat
  .ok ((s.emit (s.reg i)).advance 2)

/-- PRN r: `out <- out ++ [x[r]]`, `pc <- pc + 2` (R142). -/
def execPrn (r : Byte) (s : State) : Host.Outcome State Fault Refusal := complete s (prnCore r s)

end Sys2Proof.Machine
end

