-- ==== Sys2Proof/Machine/Stack.lean ====
section
/-! DEFINITION. The stack-pointer controller and the instructions PUSH and POP (spec/44_stack.md R165 to R171). -/

namespace Sys2Proof.Machine

/-- The address PUSH stores to: the decremented stack pointer, as a full N-bit value (R166; 20_memory.md R54). -/
def pushAddr (s : State) : Nat := decN s.params.N s.sp

/-- The value PUSH stores: for register 7 the decremented stack pointer, because the table decrements before it
reads `reg[r]` (R168 corner case (a)). -/
def pushValue (i : RegIdx) (s : State) : Nat := if i = Config.spIdx then pushAddr s else s.reg i

/-- PUSH's handler after its operand read (R168): index, then address, then value are checked before anything is
written. -/
def pushCore (r : Byte) (s : State) : Except FaultInfo State := do
  let i ← regCheck r.toNat
  let m ← memWrite s.mem (pushAddr s) (pushValue i s)
  .ok (({ s with mem := m }.setReg Config.spIdx (pushAddr s)).advance 2)

/-- PUSH r (R168). -/
def execPush (r : Byte) (s : State) : Host.Outcome State Fault Refusal := complete s (pushCore r s)

/-- The stack pointer after POP: for register 7 the loaded byte plus one, because the table writes `reg[r]` before it
increments `reg[7]` (R171 corner case (a)). -/
def popSp (i : RegIdx) (w : Nat) (s : State) : Nat :=
  incN s.params.N (if i = Config.spIdx then w else s.sp)

/-- POP's handler after its operand read (R171). -/
def popCore (r : Byte) (s : State) : Except FaultInfo State := do
  let i ← regCheck r.toNat
  let v ← memRead s.mem s.sp
  .ok (((s.setReg i (zextN v)).setReg Config.spIdx (popSp i (zextN v) s)).advance 2)

/-- POP r (R171). -/
def execPop (r : Byte) (s : State) : Host.Outcome State Fault Refusal := complete s (popCore r s)

end Sys2Proof.Machine
end

