-- ==== Sys2Proof/Machine/System.lean ====
section
/-! DEFINITION. The one system instruction, HLT (spec/41_system.md R130, R131). -/

namespace Sys2Proof.Machine

/-- HLT: `running <- 0`, `pc <- 0`; nothing else changes and nothing can raise (R130). -/
def execHlt (s : State) : Host.Outcome State Fault Refusal := .next { s with running := false, pc := 0 }

end Sys2Proof.Machine
end

