-- ==== Sys2Proof/Machine/Fetch.lean ====
section
/-! DEFINITION. Fetching an instruction (spec/40_loop_dispatch.md R113, R114): the decoder of Decode.lean over the
memory read primitive, so that each byte is read when it is needed and no later one is. -/

namespace Sys2Proof.Machine

/-- The byte `k` places after the opcode byte; the sum is not reduced modulo 256 (20_memory.md R54 (a)). -/
def codeByte (s : State) (k : Nat) : Except FaultInfo Byte := memRead s.mem (s.pc.toNat + k)

/-- Fetch and dispatch at the program counter, then the handler's operand reads (R112, R189 rows 1 to 4). -/
def fetch (s : State) : Except FaultInfo Instr := decodeFrom s.params.opc .unknownOpcode (codeByte s)

/-- Store bytes at ascending addresses; those past the end of memory are dropped. -/
def Memory.place (m : Memory) (a : Nat) : List Byte → Memory
  | [] => m
  | b :: bs => Memory.place (if a < Config.memSize then Memory.set m a b else m) (a + 1) bs

/-- A Running machine with these bytes at its program counter: what `load` and `start` would have brought about
(log entry 3). -/
def State.placeCode (s : State) (bytes : List Byte) : State :=
  { s with mem := s.mem.place s.pc.toNat bytes, running := true, fault := none, phase := .started }

end Sys2Proof.Machine
end

