-- ==== Sys2Proof/Machine/Lifecycle.lean ====
section
/-! DEFINITION. The lifecycle (spec/40_loop_dispatch.md R110) and the events by which the surroundings reach the
machine: `reset`, `load(bytes)`, `start` (spec/00_scope.md R12; spec/70_reset_and_hazards.md R210, R213). They are
inputs from outside, so `step` does not perform them. -/

namespace Sys2Proof.Machine

/-- The four lifecycle states (R110). -/
inductive Lifecycle where
  | idle
  | running
  | halted
  | faulted (kind : FaultKind)
  deriving DecidableEq, Repr

/-- The lifecycle state read off `fault` and `running`; Idle and Halted are told apart by history (R110). -/
def State.lifecycle (s : State) : Lifecycle :=
  match s.fault with
  | some k => .faulted k
  | none => if s.running then .running else if s.phase = .started then .halted else .idle

/-- The events of the interface (R12 (a) to (c)). -/
inductive Event where
  | reset
  | load (bytes : List Byte)
  | start
  deriving DecidableEq, Repr

/-- The loader's writes, one `MemWrite` per byte at ascending addresses from `k`; the memory reached and the fault
that stopped them, if any (R213; 20_memory.md R51). -/
def loadFrom (k : Nat) : List Byte → Memory → Memory × Option FaultInfo
  | [], m => (m, none)
  | b :: bs, m =>
    match memWrite m k b.toNat with
    | .error e => (m, some e)
    | .ok m' => loadFrom (k + 1) bs m'

/-- The state `load` leaves: the bytes written so far, and the fault if a write raised (R213). -/
def loaded (bytes : List Byte) (s : State) : State :=
  { s with
    mem := (loadFrom Config.loadBase bytes s.mem).1
    fault := (loadFrom Config.loadBase bytes s.mem).2.map FaultInfo.kind
    phase := .loaded }

/-- `load(bytes)` on an Idle machine; not Idle, or a second time, it is refused (R213; 93 U8). -/
def load (bytes : List Byte) (s : State) : Host.Outcome State Fault Refusal :=
  match s.lifecycle with
  | .idle => if s.phase = .loaded then .refused .secondLoad else .next (loaded bytes s)
  | .running => .refused .loadNotIdle
  | .halted => .refused .loadNotIdle
  | .faulted _ => .refused .loadNotIdle

/-- `start`: sets `running` on an Idle machine and has no effect on any other (R111, D13). -/
def start (s : State) : State :=
  match s.lifecycle with
  | .idle => { s with running := true, phase := .started }
  | .running => s
  | .halted => s
  | .faulted _ => s

/-- What an event does. `reset` may occur in any lifecycle state and nothing survives it but the parameters (R210). -/
def deliver (e : Event) (s : State) : Host.Outcome State Fault Refusal :=
  match e with
  | .reset => .next (State.resetFor s.params)
  | .load bytes => load bytes s
  | .start => .next (start s)

end Sys2Proof.Machine
end

