-- ==== Sys2Proof/Machine/Step.lean ====
section
/-! DEFINITION. One step of the loop (spec/40_loop_dispatch.md R112). -/

namespace Sys2Proof.Machine

/-- Fetch, dispatch and execute one instruction; defined only on a Running machine (R112). A fetch or dispatch that
raises has the whole effect `fault <- K` (R190). -/
def step (s : State) : Host.Outcome State Fault Refusal :=
  match s.lifecycle with
  | .idle => .fault .idle
  | .halted => .fault .halted
  | .faulted k => .fault (.faulted k)
  | .running =>
    match fetch s with
    | .error e => .next (raise s e)
    | .ok i => exec i s

/-- The instruction of a table word, stored where `step` fetches next, on a Running machine. -/
def State.withFetchWord (s : State) (nbits w : Nat) : State := s.placeCode (tableBytes nbits w)

end Sys2Proof.Machine
end

