-- ==== Sys2Proof/Machine/Surroundings.lean ====
section
/-! DEFINITION. What stands outside the CORE and the spec still writes down: the program file the loader reads
(spec/30_encoding.md R96; spec/60_exceptions.md R186) and the rendering of the output channel (spec/42_data.md R143).
Neither is part of the machine (spec/00_scope.md R4 (a)), and `step` uses neither. -/

namespace Sys2Proof.Machine

/-- A line of a program file, without its line end. -/
abbrev Line := List Char

/-- Why the loader delivers no bytes. None of these is ever in `State.fault`. -/
inductive LoaderError where
  /-- The external program resource could not be opened (R186). -/
  | programNotFound
  /-- A line of none of the three kinds of R96, which is given no meaning (93_implementation_defined.md U9). -/
  | malformedLine
  deriving DecidableEq, Repr

/-- A line that holds nothing but white space. DEDUCED, safe (log entry 5): R96 says "blank" and no more. -/
def isBlank (l : Line) : Bool := l.all fun c => c == ' ' || c == '\t' || c == '\r'

/-- The base-2 value of a string of 0 and 1, the leftmost character the most significant (R96, R57). -/
def parseBits (acc : Nat) : List Char → Option Nat
  | [] => some acc
  | '0' :: cs => parseBits (2 * acc) cs
  | '1' :: cs => parseBits (2 * acc + 1) cs
  | _ :: _ => none

/-- A kept line: its first 8 characters in base 2, anything after the eighth ignored (R96). -/
def parseKept (l : Line) : Except LoaderError Byte :=
  if l.length < 8 then .error .malformedLine
  else
    match parseBits 0 (l.take 8) with
    | some v => .ok (BitVec.ofNat 8 v)
    | none => .error .malformedLine

/-- The byte a line stands for; a comment (first character `#`) and a blank line stand for none (R96). -/
def parseLine (l : Line) : Except LoaderError (Option Byte) :=
  match l with
  | '#' :: _ => .ok none
  | _ => if isBlank l then .ok none else (parseKept l).map some

/-- The bytes of the kept lines in order: the k-th becomes the byte at address k (R96). -/
def parseFile : List Line → Except LoaderError (List Byte)
  | [] => .ok []
  | l :: ls => do
    let b ← parseLine l
    let bs ← parseFile ls
    .ok (b.toList ++ bs)

/-- `bytes_to_load()`: what the loader delivers to `load`, or why it delivers nothing (R186, R213). -/
def bytesToLoad : Option (List Line) → Except LoaderError (List Byte)
  | none => .error .programNotFound
  | some ls => parseFile ls

/-- The line of a program file that stands for a byte: 8 characters, bit 7 leftmost (R96). -/
def bitLine (b : Byte) : Line := (List.range 8).map fun k => if b.getLsbD (7 - k) then '1' else '0'

/-- The text the surroundings show: one decimal integer per line (R143). -/
def render (out : List Nat) : List String := out.map Nat.repr

end Sys2Proof.Machine
end

