-- ==== Sys2Proof/Safety.lean ====
section
/-! DEFINITION. What claims are stated in: the invariant of a reachable state, and the spec's table of fault
priorities. -/

namespace Sys2Proof.Machine

/-- What holds at reset and what every step and every event keeps: the parameters obey their constraints (R5, R8);
every register and every emitted value is below 2^N (R21, R32); the program counter is in [0, 256] (R118); the memory
has its canonical form (R33); a machine that runs has been started, and one that does not has pc = 0 (R36, R130). -/
abbrev State.Inv (s : State) : Prop :=
  s.params.WF ∧
  (∀ i : RegIdx, s.reg i < 2 ^ s.params.N) ∧
  (∀ v ∈ s.out, v < 2 ^ s.params.N) ∧
  s.pc.toNat ≤ 256 ∧
  s.mem.wf = true ∧
  (s.running = true → s.phase = .started) ∧
  (s.running = false → s.pc = 0)

/-- The state is Running (R110): the one lifecycle state in which a step is defined (R112). -/
abbrev State.isRunning (s : State) : Prop := s.running = true ∧ s.fault = none

/-- The value of the register an operand byte names, for the rows of the table below; 0 where it names none. -/
def State.regAt (s : State) (r : Nat) : Nat := if h : r < 8 then s.reg ⟨r, h⟩ else 0

/-- The table of 60_exceptions.md R189, row by row: the condition under which the row's check fails, and the fault it
reports. -/
def faultTable (s : State) : List (Bool × FaultKind) :=
  let pc := s.pc.toNat
  let op := dispatch s.params.opc (s.mem.get pc)
  let first := (s.mem.get (pc + 1)).toNat
  let second := (s.mem.get (pc + 2)).toNat
  let sp' := decN s.params.N s.sp
  let stored := if first = 7 then sp' else s.regAt first
  [ (decide (256 ≤ pc), .outOfBounds),
    (decide (op = none), .unknownOpcode),
    (decide (op ∈ [some .ldi, some .prn, some .mul, some .push, some .pop] ∧ 256 ≤ pc + 1), .outOfBounds),
    (decide (op ∈ [some .ldi, some .mul] ∧ 256 ≤ pc + 2), .outOfBounds),
    (decide (op ∈ [some .ldi, some .prn, some .mul, some .push, some .pop] ∧ 8 ≤ first), .invalidRegister),
    (decide (op = some .mul ∧ 8 ≤ second), .invalidRegister),
    (decide (op = some .push ∧ 256 ≤ sp' ∨ op = some .pop ∧ 256 ≤ s.sp), .outOfBounds),
    (decide (op = some .push ∧ 256 ≤ stored), .valueOutOfRange) ]

/-- The fault the step reports: that of the first row whose check fails, if any (R189). -/
def reportedFault (s : State) : Option FaultKind := ((faultTable s).find? (·.1)).map (·.2)

end Sys2Proof.Machine
end

