-- ==== Sys2Proof/Certificates/Slice0/Obligations.lean ====
section
/-! DEFINITION. The statements for the provers, from the numbered rules of spec/. Those about all states hold in states
no run reaches, unless `State.Inv` is a premise. -/

open Sys2Proof Sys2Proof.Machine

/- ## Reset, load, start, lifecycle -/

/-- R36, R210: from any state the `reset` event gives every element the value of the table; the host's reset state is
such a state. -/
def Obligations.ResetEventGivesResetValues : Prop :=
  deliver .reset State.reset = .next State.reset ∧
  ∀ s : State, ∃ t : State, deliver .reset s = .next t ∧
    (∀ i : RegIdx, t.reg i = if i = 7 then 0xF4 else 0) ∧ t.pc = 0 ∧ t.running = false ∧ t.fault = none ∧
    t.out = [] ∧ ∀ a, a < 256 → memRead t.mem a = .ok 0

/-- R213: `load` of at most 256 bytes into a machine just reset writes byte k to address k and changes no register, pc,
flag or output; a longer program raises OutOfBounds after its first 256 bytes are written, and `start` then has no
effect; a second `load` is refused. The refusal is the treatment U8 of the spec's 93; its name `secondLoad` is the
model's choice (log entry 7), and so is the history field that makes it possible (log entry 2): the basis is derived. -/
def Obligations.LoadWritesTheProgram : Prop :=
  ∀ (p : Params) (bytes : List Byte), ∃ t : State,
    deliver (.load bytes) (State.resetFor p) = .next t ∧
    (∀ a, a < 256 → memRead t.mem a = .ok (bytes[a]?.getD 0)) ∧
    t.x = (State.resetFor p).x ∧ t.pc = 0 ∧ t.running = false ∧ t.out = [] ∧ t.params = p ∧
    (bytes.length ≤ 256 → t.fault = none ∧ ∀ more, deliver (.load more) t = .refused .secondLoad) ∧
    (256 < bytes.length → t.fault = some .outOfBounds ∧ deliver .start t = .next t)

/-- R214, a sentence the spec marks as derived (from R210, R213, R111): the launch state after reset, load of at most
256 bytes, and start. -/
def Obligations.LaunchStateIsTheTable : Prop :=
  ∀ (p : Params) (bytes : List Byte), bytes.length ≤ 256 → ∃ t u : State,
    deliver (.load bytes) (State.resetFor p) = .next t ∧ deliver .start t = .next u ∧
    (∀ i : RegIdx, u.reg i = if i = 7 then 0xF4 else 0) ∧ u.pc = 0 ∧ u.running = true ∧ u.fault = none ∧
    u.out = [] ∧ ∀ a, a < 256 → memRead u.mem a = .ok (bytes[a]?.getD 0)

/-- R111, R110: `start` on an Idle machine sets `running` and leaves registers, pc, memory, output and fault as they
were; on a Running, Halted or Faulted machine it has no effect. That a halted machine is told from an idle one rests on
the model's history field (log entry 2), so the basis is derived. -/
def Obligations.StartSetsRunningOnlyWhenIdle : Prop :=
  ∀ s : State,
    (s.fault = none → s.running = false → s.phase ≠ .started →
      deliver .start s = .next { s with running := true, phase := .started }) ∧
    (s.isRunning ∨ s.fault ≠ none ∨ s.phase = .started → deliver .start s = .next s)

/-- 93 U8: `load` on a machine that is not Idle has no meaning and is refused. U8 makes no claim about this sequence of
events, so this is a statement about the model: that the treatment U8 gives, refuse, is a refusal under the name
`loadNotIdle` is the model's choice (log entry 7), and so is the history field that tells Halted from Idle (log entry
2). The basis is derived. -/
def Obligations.LoadRefusedUnlessIdle : Prop :=
  ∀ (s : State) (bytes : List Byte), s.isRunning ∨ s.fault ≠ none ∨ s.phase = .started →
    deliver (.load bytes) s = .refused .loadNotIdle

/-- R110, R112, R115, R192: a machine that is not Running has no step. That the stop is the interface's `fault` and the
names `faulted k`, `halted` and `idle` are the model's choice (log entry 6), and so is the history field that tells
Halted from Idle, which R110 allows and does not ask for (log entry 2). The basis is derived. -/
def Obligations.StoppedMachineHasNoStep : Prop :=
  ∀ s : State,
    (∀ k, s.fault = some k → step s = .fault (.faulted k)) ∧
    (s.fault = none → s.running = false → s.phase = .started → step s = .fault .halted) ∧
    (s.fault = none → s.running = false → s.phase ≠ .started → step s = .fault .idle)

/-- R112, R14: a step is defined exactly when `running = 1` and `fault = None`; it then answers a next state, never a
stop or a refusal. That it otherwise answers the interface's `fault` is the model's choice (log entry 6). -/
def Obligations.StepDefinedExactlyWhenRunning : Prop :=
  ∀ s : State, ((∃ t, step s = .next t) ↔ s.isRunning) ∧ (¬ s.isRunning → ∃ f, step s = .fault f)

/- ## Invariants of the whole machine -/

/-- The invariant holds after reset, whatever the parameters, and so in the host's reset state. -/
def Obligations.ResetMeetsTheInvariant : Prop :=
  State.reset.Inv ∧ ∀ p : Params, p.WF → (State.resetFor p).Inv

/-- Every step keeps the invariant: registers and emitted values below 2^N, pc in [0, 256], memory canonical, the
parameters legal, pc = 0 on a machine that does not run. Two clauses speak of the model's own fields: the parameters
(log entry 1) and the history, which says that a machine that runs was started (log entry 2). -/
def Obligations.EveryStepKeepsTheInvariant : Prop :=
  ∀ s t : State, s.Inv → step s = .next t → t.Inv

/-- R12, R210, R213, R111: every event of the interface keeps the invariant, whose clauses on the parameters and the
history are about the model's own fields (log entries 1 and 2). -/
def Obligations.EveryEventKeepsTheInvariant : Prop :=
  ∀ (e : Event) (s t : State), s.Inv → deliver e s = .next t → t.Inv

/-- R118, a sentence the spec marks as derived: every step from a pc in [0, 256] leaves pc in [0, 256]. -/
def Obligations.PcStaysInRange : Prop :=
  State.reset.pc.toNat = 0 ∧ ∀ s t : State, s.pc.toNat ≤ 256 → step s = .next t → t.pc.toNat ≤ 256

/-- R5, R8, R9: N and the opcode bytes are parameters, so no step and no event changes them. That State holds them is
the model's choice (log entry 1). -/
def Obligations.ParametersNeverChange : Prop :=
  (∀ s t : State, step s = .next t → t.params = s.params) ∧
  ∀ (e : Event) (s t : State), deliver e s = .next t → t.params = s.params

/-- R116, a sentence the spec marks as derived: every Running machine stops within 129 steps, from every state whatever
its pc. -/
def Obligations.EveryRunEndsWithin129Steps : Prop :=
  ∀ s : State, s.isRunning → ∃ (k : Nat) (t : State),
    k ≤ 129 ∧ Host.Core.run Sys2Proof.core k s = .next t ∧ ¬ t.isRunning

/-- R30: a step clears `running` exactly when the fetched instruction is HLT. -/
def Obligations.OnlyHltClearsRunning : Prop :=
  ∀ s t : State, step s = .next t → (t.running = false ↔ fetch s = .ok .hlt)

/-- R32, R142: a step leaves the output alone, or it is a PRN that appends the one register value. -/
def Obligations.OutputGrowsOnlyByPrn : Prop :=
  ∀ s t : State, step s = .next t →
    t.out = s.out ∨
    ∃ (r : Byte) (h : r.toNat < 8), fetch s = .ok (.prn r) ∧ t.out = s.out ++ [s.x[r.toNat]]

/-- R51, R59, R54 (b): while the machine runs, a cell changes only by a PUSH, at the decremented stack pointer. -/
def Obligations.OnlyPushChangesMemory : Prop :=
  ∀ (s t : State) (a : Nat), s.mem.wf = true → step s = .next t → t.mem.get a ≠ s.mem.get a →
    ∃ r, fetch s = .ok (.push r) ∧ a = pushAddr s

/-- R25, its column of writes: a register changes only if the instruction names it as its destination, or it is
register 7 and the instruction is PUSH or POP. -/
def Obligations.RegistersChangeOnlyAsTheTableSays : Prop :=
  ∀ (s t : State) (j : RegIdx), step s = .next t → t.reg j ≠ s.reg j →
    (∃ r imm, fetch s = .ok (.ldi r imm) ∧ r.toNat = j) ∨
    (∃ a b, fetch s = .ok (.mul a b) ∧ a.toNat = j) ∨
    (∃ r, fetch s = .ok (.push r) ∧ j = 7) ∨
    (∃ r, fetch s = .ok (.pop r) ∧ (r.toNat = j ∨ j = 7))

/-- R112, R32: no instruction reads `out`, so what was emitted before influences nothing a step does. -/
def Obligations.EarlierOutputInfluencesNothing : Prop :=
  ∀ (s t : State) (earlier : List Nat), step s = .next t →
    step { s with out := earlier ++ s.out } = .next { t with out := earlier ++ t.out }

/-- R5, R151, R55; 90_conflicts C4: a step at width N that wraps nothing (no product of 2^N or more, no PUSH from 0, no
POP past 2^N - 1) and raises nothing does the same at every greater width. -/
def Obligations.WiderMachineAgreesWithoutWrap : Prop :=
  ∀ (s t : State) (N' : Nat), s.Inv → s.params.N ≤ N' → step s = .next t → t.fault = none →
    (∀ (a b : Byte) (ha : a.toNat < 8) (hb : b.toNat < 8), fetch s = .ok (.mul a b) →
      s.x[a.toNat] * s.x[b.toNat] < 2 ^ s.params.N) →
    (∀ r, fetch s = .ok (.push r) → s.reg 7 ≠ 0) →
    (∀ r, fetch s = .ok (.pop r) →
      (if r.toNat = 7 then (s.mem.get (s.reg 7)).toNat else s.reg 7) + 1 < 2 ^ s.params.N) →
    step { s with params := { s.params with N := N' } } = .next { t with params := { t.params with N := N' } }

/- ## Fetch, decode, dispatch -/

/-- R112: when the bytes at the program counter decode to an instruction, a step of the Running machine is that
instruction's execution and nothing else; pc is moved by the instruction, not by the loop. That the operand bytes are
decoded with the opcode, before the handler runs, is the model's choice (log entry 8). -/
def Obligations.StepRunsTheDecodedInstruction : Prop :=
  ∀ (s : State) (i : Instr) (rest : List Byte), s.isRunning →
    decode s.params.opc s.codeBytes = .ok (i, rest) → step s = exec i s

/-- R57, R80, R88: what is fetched is the instruction whose encoding lies in memory from pc on, all of it below 256.
That the model's fetch reads the operand bytes too is the model's choice (log entry 8, DEDUCED from R112, R114 and
R189): R113's fetch is of the opcode byte alone, and the handler reads its operands as its first action. The basis is
derived. -/
def Obligations.FetchReadsTheEncodingAtPc : Prop :=
  ∀ (s : State) (i : Instr), s.params.opc.WF →
    (fetch s = .ok i ↔
      s.pc.toNat + i.width ≤ 256 ∧
      (List.range i.width).map (fun k => s.mem.get (s.pc.toNat + k)) = encode s.params.opc i)

/-- R81 to R83, R88, R95: decoding the encoding of any instruction gives it back, with every operand byte at every
value, and leaves the bytes after it. -/
def Obligations.DecodeOfEncodeIsTheInstruction : Prop :=
  ∀ (o : OpcodeMap) (i : Instr) (rest : List Byte), o.WF → decode o (encode o i ++ rest) = .ok (i, rest)

/-- R88, R95: bytes that decode are the encoding of what they decode to, followed by the rest. -/
def Obligations.EncodeOfDecodeIsTheBytes : Prop :=
  ∀ (o : OpcodeMap) (i : Instr) (bs rest : List Byte), decode o bs = .ok (i, rest) → bs = encode o i ++ rest

/-- R86, R83, R90, R89: words written out from the table, read by the decoder and as the table numbers them. -/
def Obligations.WordsOfTheTableDecode : Prop :=
  decodeTableWord 8 0x01 = some .hlt ∧
  decodeTableWord 24 0x090782 = some (.ldi 7 9) ∧
  decodeTableWord 16 0x0347 = some (.prn 3) ∧
  decodeTableWord 24 0x0100A2 = some (.mul 0 1) ∧
  decodeTableWord 16 0x0645 = some (.push 6) ∧
  decodeTableWord 16 0x0746 = some (.pop 7) ∧
  decode OpcodeMap.defaults [0x82, 0x82, 0x82] = .ok (.ldi 0x82 0x82, []) ∧
  decode OpcodeMap.defaults [0x80, 0x00, 0x00] = .error (.unknownOpcode 0x80)

/-- R88, R90: the six registered bytes select their handlers, every other byte selects none: 250 of the 256 values,
0x00 among them. -/
def Obligations.DispatchRejects250Bytes : Prop :=
  ∀ o : OpcodeMap, o.WF →
    (∀ h, dispatch o (o.byteOf h) = some h) ∧ (∀ op, dispatch o op = none ↔ op ∉ o.bytes) ∧
    dispatch o 0 = none ∧ (List.finRange 256).countP (fun k => (dispatch o (BitVec.ofFin k)).isNone) = 250

/-- R113, R29: at pc = 256 or above the fetch raises OutOfBounds with that address, and nothing else changes; the
machine does not go on at address 0. -/
def Obligations.FetchPastMemoryFaults : Prop :=
  ∀ s : State, s.isRunning → 256 ≤ s.pc.toNat →
    fetch s = .error (.outOfBounds s.pc.toNat) ∧ step s = .next { s with fault := some .outOfBounds }

/-- R184: a fetched byte with no registered handler, 0x00 among them, raises UnknownOpcode with that byte; pc does not
advance and nothing else changes. -/
def Obligations.UnregisteredOpcodeFaults : Prop :=
  ∀ s : State, s.isRunning → s.params.WF → s.pc.toNat < 256 →
    (s.mem.get s.pc.toNat ∉ s.params.opc.bytes ∨ s.mem.get s.pc.toNat = 0) →
    fetch s = .error (.unknownOpcode (s.mem.get s.pc.toNat)) ∧
    step s = .next { s with fault := some .unknownOpcode }

/- ## Faults -/

/-- R189: the fault a step reports is that of the first row of the table whose check fails, and there is none when no
check fails. -/
def Obligations.FaultsAreReportedInTheTablesOrder : Prop :=
  ∀ s t : State, step s = .next t → t.fault = reportedFault s

/-- R190, R112: a step that raises changes `fault` and nothing else, and no further step is defined. That the absence of
a step is the interface's `fault` under the name `faulted k` is the model's choice (log entry 6, DEDUCED). The basis is
derived. -/
def Obligations.FaultingStepChangesOnlyFault : Prop :=
  ∀ (s t : State) (k : FaultKind), step s = .next t → t.fault = some k →
    t = { s with fault := some k } ∧ step t = .fault (.faulted k)

/-- R182: a register operand of 8 or more raises InvalidRegister with that index, for each register operand, MUL's
destination first; nothing else changes. -/
def Obligations.InvalidRegisterOperandFaults : Prop :=
  (∀ i : Nat, 8 ≤ i → regCheck i = .error (.invalidRegister i)) ∧
  (∀ (s : State) (r imm : Byte), 8 ≤ r.toNat →
    exec (.ldi r imm) s = .next { s with fault := some .invalidRegister } ∧
    exec (.prn r) s = .next { s with fault := some .invalidRegister } ∧
    exec (.push r) s = .next { s with fault := some .invalidRegister } ∧
    exec (.pop r) s = .next { s with fault := some .invalidRegister } ∧
    ldiCore r imm s = .error (.invalidRegister r.toNat) ∧ prnCore r s = .error (.invalidRegister r.toNat) ∧
    pushCore r s = .error (.invalidRegister r.toNat) ∧ popCore r s = .error (.invalidRegister r.toNat)) ∧
  ∀ (s : State) (a b : Byte), 8 ≤ a.toNat ∨ 8 ≤ b.toNat →
    exec (.mul a b) s = .next { s with fault := some .invalidRegister } ∧
    mulCore a b s = .error (.invalidRegister (if 8 ≤ a.toNat then a.toNat else b.toNat))

/-- R153: any other ALU operation raises UnsupportedOperation and mutates no register, whatever the indices; and no
step of any program raises it, which the spec marks as derived (from R154, R88). -/
def Obligations.UnsupportedOperationStopsAndNoProgramReachesIt : Prop :=
  (∀ (name : String) (d a : Nat) (s : State),
    alu (.other name) d a s = .error (.unsupportedOperation (.other name)) ∧
    applyAlu (.other name) d a s = .next { s with fault := some .unsupportedOperation }) ∧
  ∀ s t : State, step s = .next t → t.fault ≠ some .unsupportedOperation

/-- R185: a write in bounds of a value of 256 or more raises ValueOutOfRange; a step raises it only for a PUSH of a
register that holds 256 or more, which needs N > 8. -/
def Obligations.ValueOutOfRangeNeedsWideRegisters : Prop :=
  (∀ (m : Memory) (a v : Nat), a < 256 → 256 ≤ v → memWrite m a v = .error (.valueOutOfRange v)) ∧
  ∀ s t : State, s.Inv → step s = .next t → t.fault = some .valueOutOfRange →
    8 < s.params.N ∧ ∃ (r : Byte) (h : r.toNat < 8), fetch s = .ok (.push r) ∧ 256 ≤ s.x[r.toNat]

/-- R181 (a) to (d): the occasions of OutOfBounds while the machine runs, complete. -/
def Obligations.OutOfBoundsOccasionsAreComplete : Prop :=
  ∀ s t : State, s.Inv → step s = .next t → t.fault = some .outOfBounds →
    s.pc.toNat = 256 ∨
    (s.pc.toNat = 255 ∧ ∃ h, dispatch s.params.opc (s.mem.get 255) = some h ∧ h ≠ .hlt) ∨
    (s.pc.toNat = 254 ∧ ∃ h, dispatch s.params.opc (s.mem.get 254) = some h ∧ (h = .ldi ∨ h = .mul)) ∨
    (8 < s.params.N ∧ ∃ r, (fetch s = .ok (.push r) ∧ 256 ≤ pushAddr s) ∨ (fetch s = .ok (.pop r) ∧ 256 ≤ s.reg 7))

/-- R187: the numeric codes of the fault status. -/
def Obligations.FaultCodesAreTheTable : Prop :=
  FaultKind.code none = 0 ∧ FaultKind.code (some .outOfBounds) = 1 ∧ FaultKind.code (some .invalidRegister) = 2 ∧
  FaultKind.code (some .unsupportedOperation) = 3 ∧ FaultKind.code (some .unknownOpcode) = 4 ∧
  FaultKind.code (some .valueOutOfRange) = 5

/- ## Memory -/

/-- R52, R53: MemRead and MemWrite: the bounds check, the value check after it, and a write that changes its own cell
and no other. -/
def Obligations.MemoryAccessesFollowTheirRules : Prop :=
  (∀ (m : Memory) (a : Nat), 256 ≤ a → memRead m a = .error (.outOfBounds a)) ∧
  (∀ (m : Memory) (a v : Nat), 256 ≤ a → memWrite m a v = .error (.outOfBounds a)) ∧
  (∀ (m : Memory) (a v : Nat), a < 256 → 256 ≤ v → memWrite m a v = .error (.valueOutOfRange v)) ∧
  (∀ (m : Memory) (a : Nat), a < 256 → memRead m a = .ok (m.get a)) ∧
  ∀ (m : Memory) (a v : Nat), m.wf = true → a < 256 → v < 256 → ∃ m' : Memory, memWrite m a v = .ok m' ∧
    m'.wf = true ∧ memRead m' a = .ok (BitVec.ofNat 8 v) ∧ ∀ b, b ≠ a → memRead m' b = memRead m b

/-- R64, a sentence the spec marks as derived: a byte stored by PUSH is what the very next fetch reads at that address,
and the other bytes the fetch reads are those from before. -/
def Obligations.StoreIsSeenByTheNextFetch : Prop :=
  ∀ (s t : State) (r : Byte) (h : r.toNat < 8) (k : Nat), s.mem.wf = true → exec (.push r) s = .next t →
    t.fault = none → t.pc.toNat + k < 256 →
    codeByte t k = .ok (if t.pc.toNat + k = pushAddr s then BitVec.ofNat 8 (pushValue ⟨r.toNat, h⟩ s)
      else s.mem.get (t.pc.toNat + k))

/- ## The instructions: results. Each says that `exec` answers exactly this next state, for every state. -/

/-- R130: HLT clears `running` and sets pc to 0; all else is unchanged. -/
def Obligations.HltHaltsAndRewindsPc : Prop :=
  ∀ s : State, exec .hlt s = .next { s with running := false, pc := 0 }

/-- R140: LDI writes the zero-extended immediate, register 7 included. -/
def Obligations.LdiLoadsTheImmediate : Prop :=
  ∀ (s : State) (r imm : Byte) (h : r.toNat < 8),
    exec (.ldi r imm) s = .next { s with x := s.x.set r.toNat imm.toNat h, pc := s.pc + 3 }

/-- R142: PRN appends the full register value. -/
def Obligations.PrnEmitsTheRegister : Prop :=
  ∀ (s : State) (r : Byte) (h : r.toNat < 8),
    exec (.prn r) s = .next { s with out := s.out ++ [s.x[r.toNat]], pc := s.pc + 2 }

/-- R154: MUL writes the product modulo 2^N; both factors are read before the write, so `a = b` squares. -/
def Obligations.MulMultipliesModuloTwoToTheN : Prop :=
  ∀ (s : State) (a b : Byte) (ha : a.toNat < 8) (hb : b.toNat < 8),
    exec (.mul a b) s =
      .next { s with x := s.x.set a.toNat (s.x[a.toNat] * s.x[b.toNat] % 2 ^ s.params.N) ha, pc := s.pc + 3 }

/-- R168: PUSH lowers the stack pointer and stores there the register's value, or the new stack pointer for register
7. `pushAddr` is the address the meaning uses; the last clause says which number it is. -/
def Obligations.PushStoresBelowTheStackPointer : Prop :=
  ∀ (s : State) (r : Byte) (h : r.toNat < 8), pushAddr s < 256 →
    (if r.toNat = 7 then pushAddr s else s.x[r.toNat]) < 256 →
    exec (.push r) s =
      .next { s with
        x := s.x.set 7 (pushAddr s)
        mem := s.mem.set (pushAddr s) (BitVec.ofNat 8 (if r.toNat = 7 then pushAddr s else s.x[r.toNat]))
        pc := s.pc + 2 } ∧
    (pushAddr s : Int) = ((s.x[7] : Int) - 1) % 2 ^ s.params.N

/-- R171: POP loads the byte at the stack pointer, zero-extended, then raises the stack pointer; for register 7 the
new stack pointer is the loaded byte plus one. -/
def Obligations.PopLoadsAndRaisesTheStackPointer : Prop :=
  ∀ (s : State) (r : Byte) (h : r.toNat < 8), s.x[7] < 256 →
    exec (.pop r) s =
      .next { s with
        x := (s.x.set r.toNat (s.mem.get s.x[7]).toNat h).set 7
          (((if r.toNat = 7 then (s.mem.get s.x[7]).toNat else s.x[7]) + 1) % 2 ^ s.params.N)
        pc := s.pc + 2 }

/-- R150, R151: the ALU's `apply`: the operation name is checked first, then the destination index, then the source
index; MUL and ADD write the result modulo 2^N to the destination and touch nothing else. -/
def Obligations.AluFollowsItsInterface : Prop :=
  (∀ (name : String) (d a : Nat) (s : State),
    alu (.other name) d a s = .error (.unsupportedOperation (.other name))) ∧
  (∀ (op : AluOp) (d a : Nat) (s : State), op = .add ∨ op = .mul → 8 ≤ d →
    alu op d a s = .error (.invalidRegister d)) ∧
  (∀ (op : AluOp) (d a : Nat) (s : State), op = .add ∨ op = .mul → d < 8 → 8 ≤ a →
    alu op d a s = .error (.invalidRegister a)) ∧
  ∀ (d a : RegIdx) (s : State),
    alu .add d a s = .ok { s with x := s.x.set d ((s.reg d + s.reg a) % 2 ^ s.params.N) } ∧
    alu .mul d a s = .ok { s with x := s.x.set d ((s.reg d * s.reg a) % 2 ^ s.params.N) }

/- ## The instructions: a whole step, from the bytes in memory, with its faults in priority order. -/

/-- R130: a step at a HLT byte, wherever it lies in memory. -/
def Obligations.StepAtHltFollowsItsRule : Prop :=
  ∀ s : State, s.isRunning → s.params.WF → s.pc.toNat < 256 → s.mem.get s.pc.toNat = s.params.opc.hlt →
    step s = .next { s with running := false, pc := 0 }

/-- R140: a step at an LDI byte. -/
def Obligations.StepAtLdiFollowsItsRule : Prop :=
  ∀ s : State, s.isRunning → s.params.WF → s.pc.toNat < 256 → s.mem.get s.pc.toNat = s.params.opc.ldi →
    let r := (s.mem.get (s.pc.toNat + 1)).toNat
    let imm := (s.mem.get (s.pc.toNat + 2)).toNat
    (256 ≤ s.pc.toNat + 2 → step s = .next { s with fault := some .outOfBounds }) ∧
    (s.pc.toNat + 2 < 256 → 8 ≤ r → step s = .next { s with fault := some .invalidRegister }) ∧
    (s.pc.toNat + 2 < 256 → ∀ h : r < 8, step s = .next { s with x := s.x.set r imm h, pc := s.pc + 3 })

/-- R142: a step at a PRN byte. -/
def Obligations.StepAtPrnFollowsItsRule : Prop :=
  ∀ s : State, s.isRunning → s.params.WF → s.pc.toNat < 256 → s.mem.get s.pc.toNat = s.params.opc.prn →
    let r := (s.mem.get (s.pc.toNat + 1)).toNat
    (256 ≤ s.pc.toNat + 1 → step s = .next { s with fault := some .outOfBounds }) ∧
    (s.pc.toNat + 1 < 256 → 8 ≤ r → step s = .next { s with fault := some .invalidRegister }) ∧
    (s.pc.toNat + 1 < 256 → ∀ h : r < 8, step s = .next { s with out := s.out ++ [s.x[r]], pc := s.pc + 2 })

/-- R154: a step at a MUL byte. -/
def Obligations.StepAtMulFollowsItsRule : Prop :=
  ∀ s : State, s.isRunning → s.params.WF → s.pc.toNat < 256 → s.mem.get s.pc.toNat = s.params.opc.mul →
    let a := (s.mem.get (s.pc.toNat + 1)).toNat
    let b := (s.mem.get (s.pc.toNat + 2)).toNat
    (256 ≤ s.pc.toNat + 2 → step s = .next { s with fault := some .outOfBounds }) ∧
    (s.pc.toNat + 2 < 256 → 8 ≤ a ∨ 8 ≤ b → step s = .next { s with fault := some .invalidRegister }) ∧
    (s.pc.toNat + 2 < 256 → ∀ (ha : a < 8) (hb : b < 8),
      step s = .next { s with x := s.x.set a (s.x[a] * s.x[b] % 2 ^ s.params.N) ha, pc := s.pc + 3 })

/-- R168: a step at a PUSH byte. The address is given as the spec gives it, `(x[7] - 1) mod 2^N`. -/
def Obligations.StepAtPushFollowsItsRule : Prop :=
  ∀ (s : State) (sp' : Nat), s.isRunning → s.params.WF → s.pc.toNat < 256 →
    s.mem.get s.pc.toNat = s.params.opc.push → (sp' : Int) = ((s.x[7] : Int) - 1) % 2 ^ s.params.N →
    let r := (s.mem.get (s.pc.toNat + 1)).toNat
    (256 ≤ s.pc.toNat + 1 → step s = .next { s with fault := some .outOfBounds }) ∧
    (s.pc.toNat + 1 < 256 → 8 ≤ r → step s = .next { s with fault := some .invalidRegister }) ∧
    (s.pc.toNat + 1 < 256 → ∀ h : r < 8,
      let v := if r = 7 then sp' else s.x[r]
      (256 ≤ sp' → step s = .next { s with fault := some .outOfBounds }) ∧
      (sp' < 256 → 256 ≤ v → step s = .next { s with fault := some .valueOutOfRange }) ∧
      (sp' < 256 → v < 256 → step s =
        .next { s with x := s.x.set 7 sp', mem := s.mem.set sp' (BitVec.ofNat 8 v), pc := s.pc + 2 }))

/-- R171: a step at a POP byte. -/
def Obligations.StepAtPopFollowsItsRule : Prop :=
  ∀ s : State, s.isRunning → s.params.WF → s.pc.toNat < 256 → s.mem.get s.pc.toNat = s.params.opc.pop →
    let r := (s.mem.get (s.pc.toNat + 1)).toNat
    let w := (s.mem.get s.x[7]).toNat
    (256 ≤ s.pc.toNat + 1 → step s = .next { s with fault := some .outOfBounds }) ∧
    (s.pc.toNat + 1 < 256 → 8 ≤ r → step s = .next { s with fault := some .invalidRegister }) ∧
    (s.pc.toNat + 1 < 256 → r < 8 → 256 ≤ s.x[7] → step s = .next { s with fault := some .outOfBounds }) ∧
    (s.pc.toNat + 1 < 256 → ∀ h : r < 8, s.x[7] < 256 → step s =
      .next { s with
        x := (s.x.set r w h).set 7 (((if r = 7 then w else s.x[7]) + 1) % 2 ^ s.params.N)
        pc := s.pc + 2 })

/-- R28: how each instruction writes pc; a step that raises leaves it, HLT sets it to 0, the others add their width
exactly. -/
def Obligations.EachInstructionWritesPcAsTheTableSays : Prop :=
  ∀ s t : State, step s = .next t →
    (t.fault ≠ none → t.pc = s.pc) ∧
    (t.fault = none → ∃ i, fetch s = .ok i ∧
      match i with
      | .hlt => t.pc.toNat = 0
      | .ldi _ _ => t.pc.toNat = s.pc.toNat + 3
      | .prn _ => t.pc.toNat = s.pc.toNat + 2
      | .mul _ _ => t.pc.toNat = s.pc.toNat + 3
      | .push _ => t.pc.toNat = s.pc.toNat + 2
      | .pop _ => t.pc.toNat = s.pc.toNat + 2)

/- ## The instructions: frames. The clauses on `params` and `phase` are about the model's own fields (log entries 1
and 2). -/

/-- R130, R142, R25: HLT and PRN change no register and no byte of memory; HLT changes no output; PRN does not touch
`running`. -/
def Obligations.HltAndPrnFrame : Prop :=
  ∀ (s t : State) (i : Instr), (i = .hlt ∨ ∃ r, i = .prn r) → exec i s = .next t →
    (∀ j : RegIdx, t.reg j = s.reg j) ∧ (∀ a, t.mem.get a = s.mem.get a) ∧
    (i = .hlt → t.out = s.out ∧ t.fault = s.fault) ∧ (i ≠ .hlt → t.running = s.running) ∧
    (t.fault ≠ s.fault → t = { s with fault := t.fault }) ∧ t.params = s.params ∧ t.phase = s.phase

/-- R140, R154, R171, R25: LDI, MUL and POP change no register but their destination, and for POP register 7, and no
byte of memory, output or control state but pc. -/
def Obligations.LdiMulPopFrame : Prop :=
  ∀ (s t : State) (r b : Byte) (i : Instr), (i = .ldi r b ∨ i = .mul r b ∨ i = .pop r) → exec i s = .next t →
    (∀ j : RegIdx, j.val ≠ r.toNat → (i = .pop r → j ≠ 7) → t.reg j = s.reg j) ∧
    (∀ a, t.mem.get a = s.mem.get a) ∧ t.out = s.out ∧ t.running = s.running ∧
    (t.fault ≠ s.fault → t = { s with fault := t.fault }) ∧ t.params = s.params ∧ t.phase = s.phase

/-- R168, R25: PUSH changes no register but 7 and no byte of memory but the one at the address its meaning computes. -/
def Obligations.PushFrame : Prop :=
  ∀ (s t : State) (r : Byte), s.mem.wf = true → exec (.push r) s = .next t →
    (∀ j : RegIdx, j ≠ 7 → t.reg j = s.reg j) ∧
    (∀ a, a ≠ pushAddr s → t.mem.get a = s.mem.get a) ∧ t.out = s.out ∧ t.running = s.running ∧
    (t.fault ≠ s.fault → t = { s with fault := t.fault }) ∧ t.params = s.params ∧ t.phase = s.phase

/- ## The stack -/

/-- R166: the decrement of PUSH modulo 2^N, and its use as a full N-bit address. -/
def Obligations.StackPointerDecrement : Prop :=
  (∀ N v : Nat, (decN N v : Int) = ((v : Int) - 1) % 2 ^ N) ∧ (∀ N : Nat, decN N 0 = 2 ^ N - 1) ∧
  (∀ (s : State) (r : Byte), r.toNat < 8 → 256 ≤ decN s.params.N (s.reg 7) →
    exec (.push r) s = .next { s with fault := some .outOfBounds }) ∧
  ∀ v : Nat, decN 8 v < 256

/-- R167: the increment of POP modulo 2^N never raises; past 255 on a wide machine the next PUSH comes back to 255 and
succeeds, while the next POP raises OutOfBounds. -/
def Obligations.StackPointerIncrement : Prop :=
  (∀ N v : Nat, incN N v = (v + 1) % 2 ^ N) ∧ (∀ N : Nat, incN N (2 ^ N - 1) = 0) ∧
  (∀ (s : State) (r : Byte), r.toNat < 8 → s.reg 7 < 256 →
    ∃ t, exec (.pop r) s = .next t ∧ t.fault = s.fault) ∧
  (∀ (s t : State) (r : Byte), exec (.pop r) s = .next t → 256 ≤ t.reg 7 → t.fault = none →
    8 < s.params.N ∧ (if r.toNat = 7 then (s.mem.get (s.reg 7)).toNat else s.reg 7) = 255 ∧ t.reg 7 = 256) ∧
  ∀ (t : State) (q : Byte) (h : q.toNat < 8), 8 < t.params.N → t.reg 7 = 256 →
    exec (.pop q) t = .next { t with fault := some .outOfBounds } ∧
    (q.toNat = 7 ∨ t.x[q.toNat] < 256 → ∃ u, exec (.push q) t = .next u ∧ u.reg 7 = 255 ∧ u.fault = t.fault)

/-- R172 (a), (b): a PUSH that did not raise and a POP into a register right after it make the two registers equal and
bring the stack pointer back. -/
def Obligations.PushThenPopRoundTrip : Prop :=
  ∀ (s t : State) (a b : Byte) (ha : a.toNat < 7) (hb : b.toNat < 7), s.Inv →
    exec (.push a) s = .next t → t.fault = none →
    ∃ u, exec (.pop b) t = .next u ∧ u.fault = none ∧ u.x[b.toNat] = s.x[a.toNat] ∧ u.x[7] = s.x[7]

/-- R173, R53: with N = 8 every PUSH and every POP with a register operand completes: no bounds or value check of the
stack ever fires. -/
def Obligations.EightBitStackNeverFaults : Prop :=
  ∀ (s : State) (r : Byte), s.Inv → s.params.N = 8 → r.toNat < 8 →
    (∃ t, exec (.push r) s = .next t ∧ t.fault = s.fault ∧ t.pc = s.pc + 2) ∧
    ∃ t, exec (.pop r) s = .next t ∧ t.fault = s.fault ∧ t.pc = s.pc + 2

/-- R168, R171, R181 (d), R185: where PUSH and POP trap: the store or load address is 256 or more, or the value to
store is. -/
def Obligations.StackTrapsOnWideRegisters : Prop :=
  ∀ (s : State) (r : Byte) (h : r.toNat < 8),
    (256 ≤ pushAddr s → exec (.push r) s = .next { s with fault := some .outOfBounds }) ∧
    (pushAddr s < 256 → r.toNat ≠ 7 → 256 ≤ s.x[r.toNat] →
      exec (.push r) s = .next { s with fault := some .valueOutOfRange }) ∧
    (256 ≤ s.x[7] → exec (.pop r) s = .next { s with fault := some .outOfBounds })

/- ## Outside the CORE -/

/-- R96: a line of 8 binary digits, whatever follows them, is that byte, its leftmost digit bit 7; a line whose first
character is `#` and an empty line are skipped. -/
def Obligations.ProgramFileLinesAreRead : Prop :=
  (∀ (b : Byte) (tail : Line), parseLine (bitLine b ++ tail) = .ok (some b)) ∧
  (∀ b : Byte, (bitLine b).length = 8) ∧
  (∀ tail : Line, parseLine ('#' :: tail) = .ok none) ∧ parseLine [] = .ok none
end

