-- ==== Sys2Proof/Laws/Decode.lean ====
section
/-! SUPPORT. The dispatcher and the encoder, one lemma each. -/

namespace Sys2Proof

/-- The dispatcher answers a handler only for that handler's byte (R88). -/
theorem dispatch_some {o : OpcodeMap} {op : Byte} {h : Opcode} (hd : dispatch o op = some h) : op = o.byteOf h := by
  unfold dispatch at hd
  repeat' split at hd
  all_goals cases hd
  all_goals assumption

/-- With distinct opcode bytes the order of the arms does not matter: each handler's byte selects it (R88). -/
theorem dispatch_byteOf {o : OpcodeMap} (hw : o.WF) (h : Opcode) : dispatch o (o.byteOf h) = some h := by
  obtain ⟨hn, -⟩ := hw
  simp only [OpcodeMap.bytes, List.nodup_cons, List.mem_cons, List.not_mem_nil, or_false, not_or] at hn
  obtain ⟨⟨h1, h2, h3, h4, h5⟩, ⟨h6, h7, h8, h9⟩, ⟨h10, h11, h12⟩, ⟨h13, h14⟩, h15, -⟩ := hn
  cases h <;> simp [dispatch, OpcodeMap.byteOf, *, Ne.symm, eq_comm]

/-- A byte has no handler exactly when it is none of the six (R90). -/
theorem dispatch_none {o : OpcodeMap} {op : Byte} : dispatch o op = none ↔ op ∉ o.bytes := by
  unfold dispatch
  simp only [OpcodeMap.bytes, List.mem_cons, List.not_mem_nil, or_false]
  repeat' split
  all_goals simp_all

/-- The format of a handler: how many operand bytes it reads (R81 to R83). -/
theorem operands_length (i : Instr) : i.operands.length + 1 = i.width := by
  cases i <;> rfl

end Sys2Proof
end

