-- ==== Sys2Proof/Laws/Memory.lean ====
section
/-! SUPPORT. The memory: reads after writes, and the canonical form every operation keeps. -/

namespace Sys2Proof.Machine

theorem Memory.wfFrom_cons {lo a : Nat} {v : Byte} {m : Memory} :
    Memory.wfFrom lo ((a, v) :: m) = true ↔ lo ≤ a ∧ a < 256 ∧ v ≠ 0 ∧ Memory.wfFrom (a + 1) m = true := by
  simp [Memory.wfFrom, and_assoc]

theorem Memory.wfFrom_mono {lo lo' : Nat} {m : Memory} (h : Memory.wfFrom lo m = true) (hl : lo' ≤ lo) :
    Memory.wfFrom lo' m = true := by
  cases m with
  | nil => rfl
  | cons c m =>
    obtain ⟨h1, h2⟩ := Memory.wfFrom_cons.1 h
    exact Memory.wfFrom_cons.2 ⟨by omega, h2⟩

/-- Below the first listed address every cell holds 0. -/
theorem Memory.get_below {lo a : Nat} {m : Memory} (h : Memory.wfFrom lo m = true) (ha : a < lo) :
    m.get a = 0 := by
  induction m generalizing lo with
  | nil => rfl
  | cons c m ih =>
    obtain ⟨h1, -, -, h4⟩ := Memory.wfFrom_cons.1 h
    rw [Memory.get, if_neg (by omega)]
    exact ih h4 (by omega)

theorem Memory.wfFrom_entry {lo a : Nat} {v : Byte} {m : Memory} (hl : lo ≤ a) (ha : a < 256)
    (h : Memory.wfFrom (a + 1) m = true) : Memory.wfFrom lo (Memory.entry a v m) = true := by
  rw [Memory.entry]
  split
  · exact Memory.wfFrom_mono h (by omega)
  · next hv => exact Memory.wfFrom_cons.2 ⟨hl, ha, hv, h⟩

theorem Memory.wfFrom_set {lo a : Nat} {v : Byte} {m : Memory} (h : Memory.wfFrom lo m = true) (hl : lo ≤ a)
    (ha : a < 256) : Memory.wfFrom lo (m.set a v) = true := by
  induction m generalizing lo with
  | nil => exact Memory.wfFrom_entry hl ha rfl
  | cons c m ih =>
    obtain ⟨h1, h2, h3, h4⟩ := Memory.wfFrom_cons.1 h
    rw [Memory.set]
    split
    · exact Memory.wfFrom_entry hl ha (Memory.wfFrom_cons.2 ⟨by omega, h2, h3, h4⟩)
    · split
      · next _ he => subst he; exact Memory.wfFrom_entry hl ha h4
      · exact Memory.wfFrom_cons.2 ⟨h1, h2, h3, ih h4 (by omega)⟩

/-- A write inside memory keeps the canonical form. -/
theorem Memory.wf_set {a : Nat} {v : Byte} {m : Memory} (h : m.wf = true) (ha : a < 256) :
    (m.set a v).wf = true :=
  Memory.wfFrom_set h (Nat.zero_le a) ha

theorem Memory.get_entry {a b : Nat} {v : Byte} {m : Memory} (h : m.get a = 0) :
    (Memory.entry a v m).get b = if b = a then v else m.get b := by
  rw [Memory.entry]
  split
  · next hv => by_cases hb : b = a <;> simp [hv, hb, h]
  · rfl

/-- A read after a write: the value written at its address, the old byte everywhere else. -/
theorem Memory.get_set {lo a b : Nat} {v : Byte} {m : Memory} (h : Memory.wfFrom lo m = true) :
    (m.set a v).get b = if b = a then v else m.get b := by
  induction m generalizing lo with
  | nil => exact Memory.get_entry rfl
  | cons c m ih =>
    obtain ⟨-, -, -, h4⟩ := Memory.wfFrom_cons.1 h
    rw [Memory.set]
    split
    · next hlt =>
      refine Memory.get_entry ?_
      rw [Memory.get, if_neg (by omega)]
      exact Memory.get_below h4 (by omega)
    · split
      · next _ he =>
        rw [he, Memory.get_entry (Memory.get_below h4 (by omega)), Memory.get]
        split <;> rfl
      · next hlt hne =>
        rw [Memory.get, Memory.get, ih h4]
        by_cases hb : b = c.1
        · rw [if_pos hb, if_pos hb, if_neg (by omega)]
        · simp [hb]

@[simp] theorem memRead_of_lt {m : Memory} {a : Nat} (h : a < 256) : memRead m a = .ok (m.get a) := if_pos h

@[simp] theorem memRead_of_ge {m : Memory} {a : Nat} (h : 256 ≤ a) : memRead m a = .error (.outOfBounds a) :=
  if_neg (by simpa using h)

/-- Everything a read can do. -/
theorem memRead_ok {m : Memory} {a : Nat} {v : Byte} : memRead m a = .ok v ↔ a < 256 ∧ m.get a = v := by
  by_cases h : a < 256
  · simp [h]
  · simp [memRead_of_ge (Nat.le_of_not_lt h), h]

/-- Everything a write can do. -/
theorem memWrite_ok {m m' : Memory} {a v : Nat} :
    memWrite m a v = .ok m' ↔ a < 256 ∧ v < 256 ∧ m' = m.set a (BitVec.ofNat 8 v) := by
  by_cases ha : a < 256 <;> by_cases hv : v < 256 <;> simp [memWrite, ha, hv, eq_comm]

/-- A write that answers a memory keeps the canonical form. -/
theorem memWrite_wf {m m' : Memory} {a v : Nat} (h : m.wf = true) (hw : memWrite m a v = .ok m') :
    m'.wf = true := by
  obtain ⟨ha, -, rfl⟩ := memWrite_ok.1 hw
  exact Memory.wf_set h ha

/-- The loader keeps the canonical form. -/
theorem loadFrom_wf {k : Nat} {bs : List Byte} {m : Memory} (h : m.wf = true) : (loadFrom k bs m).1.wf = true := by
  induction bs generalizing k m with
  | nil => exact h
  | cons b bs ih =>
    rw [loadFrom]
    split
    · exact h
    · next hw => exact ih (memWrite_wf h hw)

/-- Placing code keeps the canonical form. -/
theorem Memory.place_wf {a : Nat} {bs : List Byte} {m : Memory} (h : m.wf = true) : (m.place a bs).wf = true := by
  induction bs generalizing a m with
  | nil => exact h
  | cons b bs ih =>
    rw [Memory.place]
    refine ih ?_
    split
    · next ha => exact Memory.wf_set h ha
    · exact h

/-- The memory at reset has the canonical form. -/
theorem reset_mem_wf : State.reset.mem.wf = true := rfl

end Sys2Proof.Machine
end

