-- ==== Sys2Proof/Laws/State.lean ====
section
/-! SUPPORT. One lemma per field per update of State. -/

namespace Sys2Proof.Machine

variable (s : State) (i : RegIdx) (v : Nat) (w : Nat) (e : FaultInfo)

@[simp] theorem State.setReg_params : (s.setReg i v).params = s.params := rfl
@[simp] theorem State.setReg_x : (s.setReg i v).x = s.x.set i v := rfl
@[simp] theorem State.setReg_pc : (s.setReg i v).pc = s.pc := rfl
@[simp] theorem State.setReg_running : (s.setReg i v).running = s.running := rfl
@[simp] theorem State.setReg_fault : (s.setReg i v).fault = s.fault := rfl
@[simp] theorem State.setReg_out : (s.setReg i v).out = s.out := rfl
@[simp] theorem State.setReg_mem : (s.setReg i v).mem = s.mem := rfl
@[simp] theorem State.setReg_phase : (s.setReg i v).phase = s.phase := rfl

@[simp] theorem State.advance_params : (s.advance w).params = s.params := rfl
@[simp] theorem State.advance_x : (s.advance w).x = s.x := rfl
@[simp] theorem State.advance_pc : (s.advance w).pc = s.pc + BitVec.ofNat 9 w := rfl
@[simp] theorem State.advance_running : (s.advance w).running = s.running := rfl
@[simp] theorem State.advance_fault : (s.advance w).fault = s.fault := rfl
@[simp] theorem State.advance_out : (s.advance w).out = s.out := rfl
@[simp] theorem State.advance_mem : (s.advance w).mem = s.mem := rfl
@[simp] theorem State.advance_phase : (s.advance w).phase = s.phase := rfl

@[simp] theorem State.emit_params : (s.emit v).params = s.params := rfl
@[simp] theorem State.emit_x : (s.emit v).x = s.x := rfl
@[simp] theorem State.emit_pc : (s.emit v).pc = s.pc := rfl
@[simp] theorem State.emit_running : (s.emit v).running = s.running := rfl
@[simp] theorem State.emit_fault : (s.emit v).fault = s.fault := rfl
@[simp] theorem State.emit_out : (s.emit v).out = s.out ++ [v] := rfl
@[simp] theorem State.emit_mem : (s.emit v).mem = s.mem := rfl
@[simp] theorem State.emit_phase : (s.emit v).phase = s.phase := rfl

@[simp] theorem raise_params : (raise s e).params = s.params := rfl
@[simp] theorem raise_x : (raise s e).x = s.x := rfl
@[simp] theorem raise_pc : (raise s e).pc = s.pc := rfl
@[simp] theorem raise_running : (raise s e).running = s.running := rfl
@[simp] theorem raise_fault : (raise s e).fault = some e.kind := rfl
@[simp] theorem raise_out : (raise s e).out = s.out := rfl
@[simp] theorem raise_mem : (raise s e).mem = s.mem := rfl
@[simp] theorem raise_phase : (raise s e).phase = s.phase := rfl

/-- The registers after reset (R36). -/
@[simp] theorem State.resetFor_reg (p : Params) (j : RegIdx) :
    (State.resetFor p).reg j = if j = 7 then 0xF4 else 0 := by
  have h : ∀ k : RegIdx, (#v[0, 0, 0, 0, 0, 0, 0, Config.spInit] : Vector Nat 8)[k] = if k = 7 then 0xF4 else 0 := by
    decide
  exact h j

/-- Reading a register after writing one (R22). -/
@[simp] theorem State.setReg_reg (j : RegIdx) : (s.setReg i v).reg j = if i = j then v else s.reg j := by
  simp [State.reg, Vector.getElem_set, Fin.ext_iff]

@[simp] theorem State.advance_reg (j : RegIdx) : (s.advance w).reg j = s.reg j := rfl

@[simp] theorem State.emit_reg (j : RegIdx) : (s.emit v).reg j = s.reg j := rfl

@[simp] theorem raise_reg (j : RegIdx) : (raise s e).reg j = s.reg j := rfl

@[simp] theorem State.withMem_reg (m : Memory) (j : RegIdx) : ({ s with mem := m } : State).reg j = s.reg j := rfl

end Sys2Proof.Machine
end

