-- ==== Sys2Proof/Laws/Ops.lean ====
section
/-! SUPPORT. One lemma per shared operation and per meaning: everything it can do. -/

namespace Sys2Proof.Machine

theorem wrapN_lt (N v : Nat) : wrapN N v < 2 ^ N := Nat.mod_lt _ (Nat.two_pow_pos N)

/-- A byte widened to a register fits, since N is at least 8 (R5, R85). -/
theorem zextN_lt {N : Nat} (h : 8 ≤ N) (b : Byte) : zextN b < 2 ^ N :=
  Nat.lt_of_lt_of_le b.isLt (Nat.pow_le_pow_right (by omega) h)

/-- A value that fits is its own reduction. -/
theorem wrapN_of_lt {N v : Nat} (h : v < 2 ^ N) : wrapN N v = v := Nat.mod_eq_of_lt h

@[simp] theorem regCheck_of_lt {i : Nat} (h : i < 8) : regCheck i = .ok ⟨i, h⟩ := dif_pos h

@[simp] theorem regCheck_of_ge {i : Nat} (h : 8 ≤ i) : regCheck i = .error (.invalidRegister i) :=
  dif_neg (by omega)

/-- Everything the index check can do (R23). -/
theorem regCheck_ok {i : Nat} {k : RegIdx} : regCheck i = .ok k ↔ i = k.val := by
  by_cases h : i < 8
  · simp [h, Fin.ext_iff]
  · have := k.isLt
    simp [regCheck_of_ge (Nat.le_of_not_lt h)]
    omega

/-- However an instruction ends, it answers a next state: the committed one, or the old one with `fault` set. -/
theorem complete_next {s t : State} {r : Except FaultInfo State} :
    complete s r = .next t ↔ r = .ok t ∨ ∃ e, r = .error e ∧ t = raise s e := by
  cases r <;> simp [complete, eq_comm]

theorem alu_ok {op : AluOp} {d a : Nat} {s t : State} :
    alu op d a s = .ok t ↔ ∃ f di si, op.compute = some f ∧ d = di.val ∧ a = si.val ∧
      t = s.setReg di (f s.params.N (s.reg di) (s.reg si)) := by
  cases h : op.compute with
  | none => simp [alu, h]
  | some f =>
    cases hd : regCheck d with
    | error e =>
      have : ∀ k : RegIdx, d ≠ k.val := fun k hk => by simp [regCheck_ok.2 hk] at hd
      simp [alu, h, hd, bind, Except.bind, this]
    | ok di =>
      cases ha : regCheck a with
      | error e =>
        have : ∀ k : RegIdx, a ≠ k.val := fun k hk => by simp [regCheck_ok.2 hk] at ha
        simp [alu, h, hd, ha, bind, Except.bind, this]
      | ok si =>
        simp [alu, h, bind, Except.bind, regCheck_ok.1 hd, regCheck_ok.1 ha, ← Fin.ext_iff, eq_comm]

theorem ldiCore_ok {r imm : Byte} {s t : State} :
    ldiCore r imm s = .ok t ↔ ∃ i : RegIdx, r.toNat = i.val ∧ t = (s.setReg i (zextN imm)).advance 3 := by
  cases h : regCheck r.toNat with
  | error e =>
    have : ∀ k : RegIdx, r.toNat ≠ k.val := fun k hk => by simp [regCheck_ok.2 hk] at h
    simp [ldiCore, h, bind, Except.bind, this]
  | ok i => simp [ldiCore, bind, Except.bind, regCheck_ok.1 h, ← Fin.ext_iff, eq_comm]

theorem prnCore_ok {r : Byte} {s t : State} :
    prnCore r s = .ok t ↔ ∃ i : RegIdx, r.toNat = i.val ∧ t = (s.emit (s.reg i)).advance 2 := by
  cases h : regCheck r.toNat with
  | error e =>
    have : ∀ k : RegIdx, r.toNat ≠ k.val := fun k hk => by simp [regCheck_ok.2 hk] at h
    simp [prnCore, h, bind, Except.bind, this]
  | ok i => simp [prnCore, bind, Except.bind, regCheck_ok.1 h, ← Fin.ext_iff, eq_comm]

theorem mulCore_ok {a b : Byte} {s t : State} :
    mulCore a b s = .ok t ↔ ∃ i j : RegIdx, a.toNat = i.val ∧ b.toNat = j.val ∧
      t = (s.setReg i (mulN s.params.N (s.reg i) (s.reg j))).advance 3 := by
  constructor
  · intro h
    cases hu : alu .mul a.toNat b.toNat s with
    | error e => simp [mulCore, hu, bind, Except.bind] at h
    | ok u =>
      obtain ⟨f, i, j, hf, hi, hj, rfl⟩ := alu_ok.1 hu
      cases hf
      exact ⟨i, j, hi, hj, by simpa [mulCore, hu, bind, Except.bind, eq_comm] using h⟩
  · rintro ⟨i, j, hi, hj, rfl⟩
    have hu : alu .mul a.toNat b.toNat s = .ok (s.setReg i (mulN s.params.N (s.reg i) (s.reg j))) :=
      alu_ok.2 ⟨mulN, i, j, rfl, hi, hj, rfl⟩
    simp [mulCore, hu, bind, Except.bind]

theorem pushCore_ok {r : Byte} {s t : State} :
    pushCore r s = .ok t ↔ ∃ i : RegIdx, r.toNat = i.val ∧ pushAddr s < 256 ∧ pushValue i s < 256 ∧
      t = ({ s with mem := s.mem.set (pushAddr s) (BitVec.ofNat 8 (pushValue i s)) }.setReg Config.spIdx
        (pushAddr s)).advance 2 := by
  cases h : regCheck r.toNat with
  | error e =>
    have : ∀ k : RegIdx, r.toNat ≠ k.val := fun k hk => by simp [regCheck_ok.2 hk] at h
    simp [pushCore, h, bind, Except.bind, this]
  | ok i =>
    have hu : ∀ k : RegIdx, r.toNat = k.val ↔ i = k := fun k => by
      rw [regCheck_ok.1 h, ← Fin.ext_iff]
    cases hm : memWrite s.mem (pushAddr s) (pushValue i s) with
    | error e =>
      have hn : ¬ (pushAddr s < 256 ∧ pushValue i s < 256) := fun hc => by
        simp [memWrite_ok.2 ⟨hc.1, hc.2, rfl⟩] at hm
      simp [pushCore, h, hm, bind, Except.bind, hu]
      intro h1 h2
      exact absurd ⟨h1, h2⟩ hn
    | ok m =>
      obtain ⟨h1, h2, rfl⟩ := memWrite_ok.1 hm
      simp [pushCore, h, hm, bind, Except.bind, hu, h1, h2, eq_comm]

theorem popCore_ok {r : Byte} {s t : State} :
    popCore r s = .ok t ↔ ∃ i : RegIdx, r.toNat = i.val ∧ s.sp < 256 ∧
      t = ((s.setReg i (zextN (s.mem.get s.sp))).setReg Config.spIdx
        (popSp i (zextN (s.mem.get s.sp)) s)).advance 2 := by
  cases h : regCheck r.toNat with
  | error e =>
    have : ∀ k : RegIdx, r.toNat ≠ k.val := fun k hk => by simp [regCheck_ok.2 hk] at h
    simp [popCore, h, bind, Except.bind, this]
  | ok i =>
    have hu : ∀ k : RegIdx, r.toNat = k.val ↔ i = k := fun k => by
      rw [regCheck_ok.1 h, ← Fin.ext_iff]
    by_cases hs : s.sp < 256
    · simp [popCore, h, hs, bind, Except.bind, hu, eq_comm]
    · simp [popCore, h, memRead_of_ge (Nat.le_of_not_lt hs), hs, bind, Except.bind]

/-- What the `commit:` part of each instruction leaves, and when it is reached (R130, R140, R142, R154, R168, R171). -/
inductive Commit (s : State) : Instr → State → Prop
  | hlt : Commit s .hlt { s with running := false, pc := 0 }
  | ldi (r imm : Byte) (i : RegIdx) (hr : r.toNat = i.val) :
    Commit s (.ldi r imm) ((s.setReg i (zextN imm)).advance 3)
  | prn (r : Byte) (i : RegIdx) (hr : r.toNat = i.val) : Commit s (.prn r) ((s.emit (s.reg i)).advance 2)
  | mul (a b : Byte) (i j : RegIdx) (ha : a.toNat = i.val) (hb : b.toNat = j.val) :
    Commit s (.mul a b) ((s.setReg i (mulN s.params.N (s.reg i) (s.reg j))).advance 3)
  | push (r : Byte) (i : RegIdx) (hr : r.toNat = i.val) (ha : pushAddr s < 256) (hv : pushValue i s < 256) :
    Commit s (.push r) (({ s with mem := s.mem.set (pushAddr s) (BitVec.ofNat 8 (pushValue i s)) }.setReg
      Config.spIdx (pushAddr s)).advance 2)
  | pop (r : Byte) (i : RegIdx) (hr : r.toNat = i.val) (ha : s.sp < 256) :
    Commit s (.pop r) (((s.setReg i (zextN (s.mem.get s.sp))).setReg Config.spIdx
      (popSp i (zextN (s.mem.get s.sp)) s)).advance 2)

/-- The state an instruction commits is the state `exec` answers. -/
theorem exec_of_commit {i : Instr} {s t : State} (h : Commit s i t) : exec i s = .next t := by
  cases h with
  | hlt => rfl
  | ldi r imm i hr => exact complete_next.2 (.inl (ldiCore_ok.2 ⟨i, hr, rfl⟩))
  | prn r i hr => exact complete_next.2 (.inl (prnCore_ok.2 ⟨i, hr, rfl⟩))
  | mul a b i j ha hb => exact complete_next.2 (.inl (mulCore_ok.2 ⟨i, j, ha, hb, rfl⟩))
  | push r i hr ha hv => exact complete_next.2 (.inl (pushCore_ok.2 ⟨i, hr, ha, hv, rfl⟩))
  | pop r i hr ha => exact complete_next.2 (.inl (popCore_ok.2 ⟨i, hr, ha, rfl⟩))

/-- What `exec` can do, once for all six instructions: it answers the old state with `fault` set, or the state the
instruction commits. -/
theorem exec_next {i : Instr} {s t : State} (h : exec i s = .next t) : (∃ e, t = raise s e) ∨ Commit s i t := by
  cases i with
  | hlt =>
    cases h
    exact .inr .hlt
  | ldi r imm =>
    obtain hc | ⟨e, -, he⟩ := complete_next.1 h
    · obtain ⟨i, hr, rfl⟩ := ldiCore_ok.1 hc
      exact .inr (.ldi r imm i hr)
    · exact .inl ⟨e, he⟩
  | prn r =>
    obtain hc | ⟨e, -, he⟩ := complete_next.1 h
    · obtain ⟨i, hr, rfl⟩ := prnCore_ok.1 hc
      exact .inr (.prn r i hr)
    · exact .inl ⟨e, he⟩
  | mul a b =>
    obtain hc | ⟨e, -, he⟩ := complete_next.1 h
    · obtain ⟨i, j, ha, hb, rfl⟩ := mulCore_ok.1 hc
      exact .inr (.mul a b i j ha hb)
    · exact .inl ⟨e, he⟩
  | push r =>
    obtain hc | ⟨e, -, he⟩ := complete_next.1 h
    · obtain ⟨i, hr, ha, hv, rfl⟩ := pushCore_ok.1 hc
      exact .inr (.push r i hr ha hv)
    · exact .inl ⟨e, he⟩
  | pop r =>
    obtain hc | ⟨e, -, he⟩ := complete_next.1 h
    · obtain ⟨i, hr, ha, rfl⟩ := popCore_ok.1 hc
      exact .inr (.pop r i hr ha)
    · exact .inl ⟨e, he⟩

/-- Every instruction answers a next state from every state. -/
theorem exec_total (i : Instr) (s : State) : ∃ t, exec i s = .next t := by
  have key : ∀ r : Except FaultInfo State, ∃ t, complete s r = .next t := fun r => by
    cases r <;> exact ⟨_, rfl⟩
  cases i with
  | hlt => exact ⟨_, rfl⟩
  | ldi r imm => exact key _
  | prn r => exact key _
  | mul a b => exact key _
  | push r => exact key _
  | pop r => exact key _

end Sys2Proof.Machine
end

