-- ==== Sys2Proof/Laws/PerInstr.lean ====
section
/-! SUPPORT. A statement about every instruction as syntax, one lemma per constructor. -/

namespace Sys2Proof.Laws.EncodedBytes

/-- The encoding of an instruction is as long as its width (R80, R92), begins with its handler's byte (R95), and that
byte alone fixes the length. -/
def Statement (i : Instr) : Prop :=
  ∀ o : OpcodeMap, (encode o i).length = i.opcode.width ∧ (encode o i).head? = some (o.byteOf i.opcode)

theorem hlt : Statement .hlt := fun _ => ⟨rfl, rfl⟩

theorem ldi (r imm : Byte) : Statement (.ldi r imm) := fun _ => ⟨rfl, rfl⟩

theorem prn (r : Byte) : Statement (.prn r) := fun _ => ⟨rfl, rfl⟩

theorem mul (a b : Byte) : Statement (.mul a b) := fun _ => ⟨rfl, rfl⟩

theorem push (r : Byte) : Statement (.push r) := fun _ => ⟨rfl, rfl⟩

theorem pop (r : Byte) : Statement (.pop r) := fun _ => ⟨rfl, rfl⟩

end Sys2Proof.Laws.EncodedBytes
end

