-- ==== Sys2Proof/Laws/Step.lean ====
section
/-! SUPPORT. What fetching and one step can do, once for all. -/

namespace Sys2Proof.Machine

@[simp] theorem lifecycle_running {s : State} (hr : s.running = true) (hf : s.fault = none) :
    s.lifecycle = .running := by
  simp [State.lifecycle, hr, hf]

/-- The lifecycle state Running, read off the two fields (R110). -/
theorem lifecycle_eq_running {s : State} : s.lifecycle = .running ↔ s.running = true ∧ s.fault = none := by
  unfold State.lifecycle
  cases s.fault <;> cases s.running <;> by_cases h : s.phase = .started <;> simp [h]

/-- The lifecycle state Idle, read off the fields and the history (R110). -/
theorem lifecycle_eq_idle {s : State} :
    s.lifecycle = .idle ↔ s.running = false ∧ s.fault = none ∧ s.phase ≠ .started := by
  unfold State.lifecycle
  cases s.fault <;> cases s.running <;> by_cases h : s.phase = .started <;> simp [h]

/-- A step of a Running machine is its fetch and then the instruction (R112). -/
theorem step_running {s : State} (hr : s.running = true) (hf : s.fault = none) :
    step s = match fetch s with
      | .error e => .next (raise s e)
      | .ok i => exec i s := by
  cases h : fetch s <;> simp [step, hr, hf, h]

/-- Everything a step can do: the machine was Running, and either the fetch raised or the fetched instruction
executed. -/
theorem step_next {s t : State} (h : step s = .next t) :
    (s.running = true ∧ s.fault = none) ∧
    ((∃ e, fetch s = .error e ∧ t = raise s e) ∨ ∃ i, fetch s = .ok i ∧ exec i s = .next t) := by
  have hl : s.lifecycle = .running := by
    unfold step at h
    split at h
    · cases h
    · cases h
    · cases h
    · assumption
  obtain ⟨hr, hf⟩ := lifecycle_eq_running.1 hl
  refine ⟨⟨hr, hf⟩, ?_⟩
  rw [step_running hr hf] at h
  split at h
  · next e he => exact .inl ⟨e, he, by simpa [eq_comm] using h⟩
  · next i hi => exact .inr ⟨i, hi, h⟩

theorem codeByte_ok {s : State} {k : Nat} {b : Byte} :
    codeByte s k = .ok b ↔ s.pc.toNat + k < 256 ∧ s.mem.get (s.pc.toNat + k) = b :=
  memRead_ok

/-- A fetch that succeeds has read all the instruction's bytes inside memory, so the advance of `pc` is exact
(R29, R118). -/
theorem fetch_ok_fits {s : State} {i : Instr} (h : fetch s = .ok i) : s.pc.toNat + i.width ≤ 256 := by
  have f2 : ∀ mk, (∀ b, (mk b : Instr).width = 2) → readF2 (codeByte s) mk = .ok i →
      s.pc.toNat + i.width ≤ 256 := by
    intro mk hw hr
    cases h1 : codeByte s 1 with
    | error e => simp [readF2, h1] at hr
    | ok b =>
      simp only [readF2, h1, Except.ok.injEq] at hr
      have := (codeByte_ok.1 h1).1
      rw [← hr, hw]
      omega
  have f3 : ∀ mk, (∀ b c, (mk b c : Instr).width = 3) → readF3 (codeByte s) mk = .ok i →
      s.pc.toNat + i.width ≤ 256 := by
    intro mk hw hr
    cases h1 : codeByte s 1 with
    | error e => simp [readF3, h1] at hr
    | ok b =>
      cases h2 : codeByte s 2 with
      | error e => simp [readF3, h1, h2] at hr
      | ok c =>
        simp only [readF3, h1, h2, Except.ok.injEq] at hr
        have := (codeByte_ok.1 h2).1
        rw [← hr, hw]
        omega
  cases h0 : codeByte s 0 with
  | error e => simp [fetch, decodeFrom, h0] at h
  | ok op =>
    have hp := (codeByte_ok.1 h0).1
    simp only [fetch, decodeFrom, h0] at h
    cases hd : dispatch s.params.opc op with
    | none => simp [hd] at h
    | some k =>
      simp only [hd] at h
      cases k with
      | hlt => cases h; simpa [Instr.width, Instr.opcode, Opcode.width] using hp
      | ldi => exact f3 _ (fun _ _ => rfl) h
      | prn => exact f2 _ (fun _ => rfl) h
      | mul => exact f3 _ (fun _ _ => rfl) h
      | push => exact f2 _ (fun _ => rfl) h
      | pop => exact f2 _ (fun _ => rfl) h

/-- A handler's byte in memory makes the fetch its operand reads (R114). -/
theorem fetch_of_opcode {s : State} {h : Opcode} (hw : s.params.WF) (hp : s.pc.toNat < 256)
    (ho : s.mem.get s.pc.toNat = s.params.opc.byteOf h) : fetch s = readOperands (codeByte s) h := by
  simp [fetch, decodeFrom, codeByte, hp, ho, dispatch_byteOf hw.2]

/-- Format F2 past the end of memory (R181 (b)). -/
theorem readF2_error {s : State} {mk : Byte → Instr} (h : 256 ≤ s.pc.toNat + 1) :
    readF2 (codeByte s) mk = .error (.outOfBounds (s.pc.toNat + 1)) := by
  simp [readF2, codeByte, h]

/-- Format F2 inside memory (R82). -/
theorem readF2_ok {s : State} {mk : Byte → Instr} (h : s.pc.toNat + 1 < 256) :
    readF2 (codeByte s) mk = .ok (mk (s.mem.get (s.pc.toNat + 1))) := by
  simp [readF2, codeByte, h]

/-- Format F3 past the end of memory (R181 (b), (c)): the first operand address outside it is reported. -/
theorem readF3_error {s : State} {mk : Byte → Byte → Instr} (h : 256 ≤ s.pc.toNat + 2) :
    readF3 (codeByte s) mk =
      .error (.outOfBounds (if s.pc.toNat + 1 < 256 then s.pc.toNat + 2 else s.pc.toNat + 1)) := by
  by_cases h1 : s.pc.toNat + 1 < 256
  · simp [readF3, codeByte, h1, h]
  · simp [readF3, codeByte, memRead_of_ge (Nat.le_of_not_lt h1), h1]

/-- Format F3 inside memory (R83). -/
theorem readF3_ok {s : State} {mk : Byte → Byte → Instr} (h : s.pc.toNat + 2 < 256) :
    readF3 (codeByte s) mk = .ok (mk (s.mem.get (s.pc.toNat + 1)) (s.mem.get (s.pc.toNat + 2))) := by
  simp [readF3, codeByte, h, show s.pc.toNat + 1 < 256 by omega]

/-- Advancing by the width of an instruction that was fetched never wraps (R118). -/
theorem advance_exact {p : Pc} {w : Nat} (h : p.toNat + w ≤ 256) : (p + BitVec.ofNat 9 w).toNat = p.toNat + w := by
  rw [BitVec.toNat_add, BitVec.toNat_ofNat]
  omega

end Sys2Proof.Machine
end

