-- ==== Sys2Proof/Tests/Slice0.lean ====
section
/-! SUPPORT. Tests from the vectors of spec/95_test_vectors.md (T1 to T130, S1 to S12), the smoke tests of WellFormed
and the decoder, and one witness for the hypotheses of each statement of Certificates/Slice0/Obligations.lean. -/

namespace Sys2Proof.Tests

open Sys2Proof Sys2Proof.Machine

/-- A Running machine of width `N`, with the default opcode bytes. -/
def at8 (N : Nat) (x : Vector Nat 8) (pc : Pc) (mem : Memory) : State :=
  { State.resetFor { Params.defaults with N := N } with x := x, pc := pc, mem := mem, running := true, phase := .started }

/-- The registers at launch, but for register 0 and the stack pointer. -/
def regs (r0 sp : Nat) : Vector Nat 8 := #v[r0, 0, 0, 0, 0, 0, 0, sp]

/-- The state an outcome answers, if it answers one. -/
def nextOf : Host.Outcome State Fault Refusal → Option State
  | .next t => some t
  | .fault _ => none
  | .refused _ => none

/-- A field of the state a step answers. -/
def after {α : Type} (f : State → α) (s : State) : Option α := (nextOf (step s)).map f

/- ## Well-formedness: an ill-formed term for each register operand (R23, R84) -/

theorem test_wf_refuses_ldi_8 : (Instr.ldi 8 1).wf = false := by decide
theorem test_wf_refuses_prn_255 : (Instr.prn 255).wf = false := by decide
theorem test_wf_refuses_mul_first : (Instr.mul 8 0).wf = false := by decide
theorem test_wf_refuses_mul_second : (Instr.mul 0 8).wf = false := by decide
theorem test_wf_refuses_push_8 : (Instr.push 8).wf = false := by decide
theorem test_wf_refuses_pop_128 : (Instr.pop 128).wf = false := by decide
theorem test_wf_accepts_any_immediate : (Instr.ldi 7 255).wf = true := by decide

/- ## Decoding: words written bit by bit from the table (T1 to T12; `encoding` column of opcode_table.json) -/

theorem test_decode_hlt : decode OpcodeMap.defaults [0b00000001#8] = .ok (.hlt, []) := by decide
theorem test_decode_ldi :
    decode OpcodeMap.defaults [0b10000010#8, 0b00000111#8, 0b00001001#8, 0b11111111#8] =
      .ok (.ldi 7 9, [0xFF]) := by decide
theorem test_decode_prn : decode OpcodeMap.defaults [0b01000111#8, 0b00000011#8] = .ok (.prn 3, []) := by decide
theorem test_decode_mul :
    decode OpcodeMap.defaults [0b10100010#8, 0b00000100#8, 0b00000001#8] = .ok (.mul 4 1, []) := by decide
theorem test_decode_push : decode OpcodeMap.defaults [0b01000101#8, 0b00000110#8] = .ok (.push 6, []) := by decide
theorem test_decode_pop : decode OpcodeMap.defaults [0b01000110#8, 0b00000111#8] = .ok (.pop 7, []) := by decide
/-- T10: the neighbours of the six bytes, and T8, LS-8's ADD. -/
theorem test_decode_neighbours :
    ([0x00, 0x02, 0x03, 0x44, 0x48, 0x81, 0x83, 0xA0, 0xA1, 0xA3, 0xFF] : List Byte).all
      (fun b => dispatch OpcodeMap.defaults b = none) = true := by decide
theorem test_decode_missing_operand : decode OpcodeMap.defaults [0x82, 0x00] = .error (.missingByte 2) := by decide
theorem test_encode_ldi : encode OpcodeMap.defaults (.ldi 0 8) = [0x82, 0x00, 0x08] := by decide
theorem test_opcode_table_wf : OpcodeMap.defaults.WF := by decide
theorem test_opcode_zero_refused : ¬ ({ OpcodeMap.defaults with hlt := 0 } : OpcodeMap).WF := by decide
theorem test_opcode_twice_refused : ¬ ({ OpcodeMap.defaults with hlt := 0x82 } : OpcodeMap).WF := by decide
/-- Another legal choice of the bytes (R8): HLT 0x11 instead of 0x01. -/
theorem test_decode_other_bytes :
    decode { OpcodeMap.defaults with hlt := 0x11 } [0x11] = .ok (.hlt, []) ∧
    decode { OpcodeMap.defaults with hlt := 0x11 } [0x01] = .error (.unknownOpcode 1) := by decide

/- ## The first instruction after reset, placed as the host places it -/

theorem test_first_step_ldi : after (·.x) (State.reset.withFetchWord 24 0x080082) = some (regs 8 244) := by decide
theorem test_first_step_prn : after (·.out) (State.reset.withFetchWord 16 0x0747) = some [244] := by decide
theorem test_reset_has_no_step : step State.reset = .fault .idle := rfl

/- ## HLT -/

/-- T20. -/
theorem test_hlt_rewinds : after (fun t => (t.pc, t.running)) (at8 8 (regs 0 244) 11 [(11, 1)]) = some (0, false) := by
  decide
/-- T22. -/
theorem test_hlt_at_255 :
    after (fun t => (t.pc, t.running, t.fault)) (at8 8 (regs 0 244) 255 [(255, 1)]) = some (0, false, none) := by decide

/- ## LDI -/

/-- T36: the last place a 3-byte instruction fits. -/
theorem test_ldi_at_253 :
    after (fun t => (t.x[1], t.pc, t.fault)) (at8 8 (regs 0 244) 253 [(253, 0x82), (254, 1), (255, 0x2A)]) =
      some (42, 256, none) := by decide
/-- T37: the bounds check comes before the index check. -/
theorem test_ldi_at_254 :
    after (fun t => (t.fault, t.pc)) (at8 8 (regs 0 244) 254 [(254, 0x82), (255, 9)]) =
      some (some .outOfBounds, 254) := by decide

/- ## PRN -/

/-- T44. -/
theorem test_prn_appends :
    after (·.out) { at8 8 (regs 5 244) 0 [(0, 0x47)] with out := [5] } = some [5, 5] := by decide
/-- T47. -/
theorem test_prn_wide : after (·.out) (at8 32 (regs 65025 244) 0 [(0, 0x47)]) = some [65025] := by decide

/- ## MUL and the ALU -/

/-- T57. -/
theorem test_mul_wraps : after (·.x[0]) (at8 8 (regs 255 244) 0 [(0, 0xA2)]) = some 1 := by decide
/-- T65: MUL may write register 7. -/
theorem test_mul_sp :
    after (fun t => (t.x[7], t.x[0], t.pc)) (at8 8 (regs 2 244) 0 [(0, 0xA2), (1, 7)]) = some (232, 2, 3) := by decide
/-- T63. -/
theorem test_mul_wide : after (·.x[0]) (at8 32 (regs 4294967295 244) 0 [(0, 0xA2)]) = some 1 := by decide
/-- T69: ADD, N = 8 and N = 32. -/
theorem test_alu_add :
    (nextOf (applyAlu .add 0 1 (at8 8 #v[200, 100, 0, 0, 0, 0, 0, 244] 0 []))).map (·.x[0]) = some 44 ∧
    (nextOf (applyAlu .add 0 1 (at8 32 #v[200, 100, 0, 0, 0, 0, 0, 244] 0 []))).map (·.x[0]) = some 300 := by decide
/-- T71: the operation is checked before the indices. -/
theorem test_alu_other : alu (.other "DIV") 9 9 State.reset = .error (.unsupportedOperation (.other "DIV")) := rfl
/-- T66: the destination is checked first. -/
theorem test_mul_index : mulCore 9 10 State.reset = .error (.invalidRegister 9) := rfl

/- ## PUSH -/

/-- T81: PUSH 7 stores the decremented stack pointer. -/
theorem test_push_sp :
    after (fun t => (t.x[7], t.mem.get 243)) (at8 8 (regs 0 244) 0 [(0, 0x45), (1, 7)]) = some (243, 243) := by decide
/-- T83: N = 8 wraps. -/
theorem test_push_wraps :
    after (fun t => (t.x[7], t.mem.get 255, t.fault)) (at8 8 (regs 7 0) 0 [(0, 0x45)]) = some (255, 7, none) := by
  decide
/-- T84: N = 32 faults, and nothing is decremented. -/
theorem test_push_wide_faults :
    pushCore 0 (at8 32 (regs 7 0) 0 [(0, 0x45)]) = .error (.outOfBounds 4294967295) := rfl
/-- T88 and T87: the smallest refused and the largest storable value. -/
theorem test_push_value :
    pushCore 0 (at8 32 (regs 256 244) 0 []) = .error (.valueOutOfRange 256) ∧
    after (·.mem.get 243) (at8 32 (regs 255 244) 0 [(0, 0x45)]) = some 255 := ⟨rfl, by decide⟩
/-- T82: a pushed 0 overwrites, and the memory keeps its canonical form. -/
theorem test_push_zero :
    after (·.mem) (at8 8 (regs 0 243) 0 [(0, 0x45), (242, 9)]) = some [(0, 0x45)] := by decide
/-- T94: PUSH overwrites its own operand byte after reading it. -/
theorem test_push_own_byte :
    after (fun t => (t.x[7], t.mem.get 7, t.pc)) (at8 8 (regs 0x99 8) 6 [(6, 0x45)]) = some (7, 0x99, 8) := by decide

/- ## POP -/

/-- T102: POP 7 gives the loaded byte plus one. -/
theorem test_pop_sp : after (·.x[7]) (at8 8 (regs 0 244) 0 [(0, 0x46), (1, 7), (244, 0x20)]) = some 0x21 := by decide
/-- T104 and T105: at 255 the stack pointer wraps with N = 8 and does not with N = 32. -/
theorem test_pop_at_255 :
    after (fun t => (t.x[0], t.x[7])) (at8 8 (regs 0 255) 0 [(0, 0x46), (255, 3)]) = some (3, 0) ∧
    after (fun t => (t.x[0], t.x[7], t.fault)) (at8 32 (regs 0 255) 0 [(0, 0x46), (255, 3)]) = some (3, 256, none) := by
  decide
/-- T106. -/
theorem test_pop_wide_faults : popCore 0 (at8 32 (regs 0 256) 0 [(0, 0x46)]) = .error (.outOfBounds 256) := rfl

/- ## Fetch, lifecycle, load -/

/-- T120 and T121. -/
theorem test_fetch_end :
    after (fun t => (t.fault, t.pc)) (at8 8 (regs 0 244) 256 []) = some (some .outOfBounds, 256) ∧
    after (fun t => (t.fault, t.pc)) (at8 8 (regs 0 244) 255 [(255, 0x33)]) = some (some .unknownOpcode, 255) := by
  decide
set_option maxRecDepth 20000 in
/-- T126: the 257th byte. -/
theorem test_load_257 :
    (nextOf (deliver (.load (List.replicate 257 0)) State.reset)).map (fun t => (t.fault, t.running)) =
      some (some .outOfBounds, false) := by decide
/-- T129: `start` on a halted machine. -/
theorem test_start_after_hlt :
    ((nextOf (step (at8 8 (regs 0 244) 0 [(0, 1)]))).map fun t => decide (start t = t)) = some true := by decide
/-- T128. -/
theorem test_faulted_has_no_step :
    step { at8 8 (regs 0 244) 0 [(0, 1)] with fault := some .unknownOpcode } = .fault (.faulted .unknownOpcode) := rfl
/-- S10: the program file of the source. -/
theorem test_program_file :
    bytesToLoad (some [['#', 'c', 'o'], [], ['1', '0', '0', '0', '0', '0', '1', '0']]) = .ok [0x82] := by decide
theorem test_program_file_malformed : bytesToLoad (some [['1', '0', '2']]) = .error .malformedLine := by decide
theorem test_program_file_absent : bytesToLoad none = .error .programNotFound := rfl
/-- S8: what the surroundings show. -/
theorem test_render : render [72, 5] = ["72", "5"] := by decide
/-- The reset memory has its canonical form; an unsorted one and one that lists a 0 have not. -/
theorem test_memory_form :
    Memory.wf [] = true ∧ Memory.wf [(3, 1), (2, 1)] = false ∧ Memory.wf [(2, 0)] = false ∧
    Memory.wf [(256, 1)] = false := by decide

/- ## Witnesses: for each statement with hypotheses, a state and operands that meet them, at the bounds of its clauses -/

/-- The longest program that fits and the shortest that does not. -/
theorem witness_LoadWritesTheProgram (b : Byte) :
    (List.replicate 256 b).length ≤ 256 ∧ 256 < (List.replicate 257 b).length :=
  ⟨List.length_replicate.le, (Nat.lt_succ_self 256).trans_eq List.length_replicate.symm⟩

theorem witness_LaunchStateIsTheTable (b : Byte) : (List.replicate 256 b).length ≤ 256 ∧ ([] : List Byte).length ≤ 256 :=
  ⟨List.length_replicate.le, Nat.zero_le 256⟩

theorem witness_StartSetsRunningOnlyWhenIdle :
    (State.reset.fault = none ∧ State.reset.running = false ∧ State.reset.phase ≠ .started) ∧
    (at8 8 (regs 0 244) 0 []).isRunning ∧ { State.reset with fault := some .outOfBounds }.fault ≠ none ∧
    { State.reset with phase := .started }.phase = .started := by decide

theorem witness_LoadRefusedUnlessIdle :
    (at8 8 (regs 0 244) 0 []).isRunning ∧ { State.reset with fault := some .outOfBounds }.fault ≠ none ∧
    { State.reset with phase := .started }.phase = .started := by decide

theorem witness_StoppedMachineHasNoStep :
    { State.reset with fault := some .outOfBounds }.fault = some .outOfBounds ∧
    (let s := { State.reset with phase := .started }; s.fault = none ∧ s.running = false ∧ s.phase = .started) ∧
    (State.reset.fault = none ∧ State.reset.running = false ∧ State.reset.phase ≠ .started) := by decide

theorem witness_StepDefinedExactlyWhenRunning : (at8 8 (regs 0 244) 0 []).isRunning ∧ ¬ State.reset.isRunning := by
  decide

theorem witness_ResetMeetsTheInvariant : Params.defaults.WF ∧ { Params.defaults with N := 32 }.WF := by decide

/-- A state of the invariant, at the top of every range, with a step: also for every statement whose hypotheses are the
invariant and a step, or a step alone. -/
theorem witness_EveryStepKeepsTheInvariant :
    ∃ s t : State, s.Inv ∧ step s = .next t ∧ t.fault = none :=
  ⟨{ at8 8 (regs 255 255) 254 [(254, 0x47)] with out := [255] }, _, by decide, rfl, by decide⟩

theorem witness_EveryEventKeepsTheInvariant :
    ∃ t u v : State, State.reset.Inv ∧ deliver (.load [0x47]) State.reset = .next t ∧
      deliver .start State.reset = .next u ∧ deliver .reset State.reset = .next v :=
  ⟨_, _, _, by decide, rfl, rfl, rfl⟩

theorem witness_PcStaysInRange :
    (∃ t, (at8 8 (regs 0 244) 256 []).pc.toNat ≤ 256 ∧ step (at8 8 (regs 0 244) 256 []) = .next t) ∧
    ∃ t, (at8 8 (regs 0 244) 0 [(0, 0x47)]).pc.toNat ≤ 256 ∧ step (at8 8 (regs 0 244) 0 [(0, 0x47)]) = .next t :=
  ⟨⟨_, by decide, rfl⟩, _, by decide, rfl⟩

theorem witness_ParametersNeverChange :
    ∃ t u, step (at8 32 (regs 0 244) 0 [(0, 0x47)]) = .next t ∧
      deliver .reset (at8 32 (regs 0 244) 0 []) = .next u :=
  ⟨_, _, rfl, rfl⟩

theorem witness_EveryRunEndsWithin129Steps : (at8 8 (regs 0 244) 0 [(0, 0x47)]).isRunning := by decide

theorem witness_OnlyHltClearsRunning :
    ∃ t u, step (at8 8 (regs 0 244) 0 [(0, 1)]) = .next t ∧ t.running = false ∧
      step (at8 8 (regs 0 244) 0 [(0, 0x47)]) = .next u ∧ u.running = true :=
  ⟨_, _, rfl, by decide, rfl, by decide⟩

theorem witness_OutputGrowsOnlyByPrn :
    ∃ t u, step (at8 8 (regs 9 244) 0 [(0, 0x47)]) = .next t ∧ t.out = [9] ∧
      step (at8 8 (regs 9 244) 0 [(0, 0x46)]) = .next u ∧ u.out = [] :=
  ⟨_, _, rfl, by decide, rfl, by decide⟩

theorem witness_OnlyPushChangesMemory :
    ∃ s t : State, s.mem.wf = true ∧ step s = .next t ∧ t.mem.get 0 ≠ s.mem.get 0 :=
  ⟨at8 8 (regs 1 1) 6 [(6, 0x45)], _, by decide, rfl, by decide⟩

theorem witness_RegistersChangeOnlyAsTheTableSays :
    (∃ s t : State, step s = .next t ∧ t.reg 0 ≠ s.reg 0) ∧ (∃ s t : State, step s = .next t ∧ t.reg 1 ≠ s.reg 1) ∧
    (∃ s t : State, step s = .next t ∧ t.reg 7 ≠ s.reg 7) ∧ ∃ s t : State, step s = .next t ∧ t.reg 2 ≠ s.reg 2 :=
  ⟨⟨at8 8 (regs 3 244) 0 [(0, 0xA2)], _, rfl, by decide⟩, ⟨at8 8 (regs 3 244) 0 [(0, 0x82), (1, 1), (2, 5)], _, rfl, by decide⟩,
    ⟨at8 8 (regs 3 244) 0 [(0, 0x45)], _, rfl, by decide⟩,
    ⟨at8 8 (regs 3 1) 0 [(0, 0x46), (1, 2)], _, rfl, by decide⟩⟩

theorem witness_EarlierOutputInfluencesNothing :
    ∃ t, step (at8 8 (regs 9 244) 0 [(0, 0x47)]) = .next t ∧ t.out = [9] :=
  ⟨_, rfl, by decide⟩

/-- MUL with the largest product below 2^8, PUSH from 1 and POP to 255 on the narrow machine. -/
theorem witness_WiderMachineAgreesWithoutWrap :
    (∃ s t : State, s.Inv ∧ s.params.N ≤ 32 ∧ step s = .next t ∧ t.fault = none ∧ fetch s = .ok (.mul 0 1) ∧
      s.x[0] * s.x[1] < 2 ^ s.params.N) ∧
    (∃ s t : State, s.Inv ∧ s.params.N ≤ 32 ∧ step s = .next t ∧ t.fault = none ∧ fetch s = .ok (.push 0) ∧
      s.reg 7 ≠ 0) ∧
    ∃ s t : State, s.Inv ∧ s.params.N ≤ 32 ∧ step s = .next t ∧ t.fault = none ∧ fetch s = .ok (.pop 0) ∧
      s.reg 7 + 1 < 2 ^ s.params.N :=
  ⟨⟨at8 8 #v[15, 17, 0, 0, 0, 0, 0, 244] 0 [(0, 0xA2), (2, 1)], _, by decide, by decide, rfl, by decide, rfl, by decide⟩,
    ⟨at8 8 (regs 0 1) 0 [(0, 0x45)], _, by decide, by decide, rfl, by decide, rfl, by decide⟩,
    ⟨at8 8 (regs 0 254) 0 [(0, 0x46)], _, by decide, by decide, rfl, by decide, rfl, by decide⟩⟩

/-- An instruction of each length, each at the last address where it fits. -/
theorem witness_StepRunsTheDecodedInstruction :
    ((at8 8 (regs 0 244) 253 [(253, 0x82), (254, 1), (255, 2)]).isRunning ∧
      decode OpcodeMap.defaults (at8 8 (regs 0 244) 253 [(253, 0x82), (254, 1), (255, 2)]).codeBytes =
        .ok (.ldi 1 2, [])) ∧
    decode OpcodeMap.defaults (at8 8 (regs 0 244) 254 [(254, 0x47), (255, 2)]).codeBytes = .ok (.prn 2, []) ∧
    decode OpcodeMap.defaults (at8 8 (regs 0 244) 255 [(255, 1)]).codeBytes = .ok (.hlt, []) := by decide

theorem witness_FetchReadsTheEncodingAtPc :
    (at8 8 (regs 0 244) 254 [(254, 0x47), (255, 2)]).params.opc.WF ∧
    fetch (at8 8 (regs 0 244) 254 [(254, 0x47), (255, 2)]) = .ok (.prn 2) := by decide

theorem witness_DecodeOfEncodeIsTheInstruction :
    OpcodeMap.defaults.WF ∧ { OpcodeMap.defaults with hlt := 0x11 }.WF := by decide

theorem witness_EncodeOfDecodeIsTheBytes :
    decode OpcodeMap.defaults [0x82, 0xFF, 0x00, 0x01] = .ok (.ldi 0xFF 0, [1]) := by decide

theorem witness_DispatchRejects250Bytes : OpcodeMap.defaults.WF := by decide

theorem witness_FetchPastMemoryFaults :
    (at8 8 (regs 0 244) 256 []).isRunning ∧ 256 ≤ (at8 8 (regs 0 244) 256 []).pc.toNat := by decide

theorem witness_UnregisteredOpcodeFaults :
    (let s := at8 8 (regs 0 244) 255 [(255, 0x33)]; s.isRunning ∧ s.params.WF ∧ s.pc.toNat < 256 ∧
      s.mem.get s.pc.toNat ∉ s.params.opc.bytes) ∧
    (let s := at8 8 (regs 0 244) 0 []; s.isRunning ∧ s.params.WF ∧ s.pc.toNat < 256 ∧ s.mem.get s.pc.toNat = 0) := by
  decide

/-- Steps that raise in each row of the table that a program can reach. -/
theorem witness_FaultsAreReportedInTheTablesOrder :
    (∃ t, step (at8 8 (regs 0 244) 256 []) = .next t ∧ t.fault = some .outOfBounds) ∧
    (∃ t, step (at8 8 (regs 0 244) 255 [(255, 0x33)]) = .next t ∧ t.fault = some .unknownOpcode) ∧
    (∃ t, step (at8 8 (regs 0 244) 255 [(255, 0x45)]) = .next t ∧ t.fault = some .outOfBounds) ∧
    (∃ t, step (at8 8 (regs 0 244) 254 [(254, 0x82), (255, 9)]) = .next t ∧ t.fault = some .outOfBounds) ∧
    (∃ t, step (at8 32 (regs 0 0) 0 [(0, 0x45), (1, 8)]) = .next t ∧ t.fault = some .invalidRegister) ∧
    (∃ t, step (at8 8 (regs 0 244) 0 [(0, 0xA2), (2, 8)]) = .next t ∧ t.fault = some .invalidRegister) ∧
    (∃ t, step (at8 32 (regs 256 0) 0 [(0, 0x45)]) = .next t ∧ t.fault = some .outOfBounds) ∧
    ∃ t, step (at8 32 (regs 256 244) 0 [(0, 0x45)]) = .next t ∧ t.fault = some .valueOutOfRange :=
  ⟨⟨_, rfl, by decide⟩, ⟨_, rfl, by decide⟩, ⟨_, rfl, by decide⟩, ⟨_, rfl, by decide⟩, ⟨_, rfl, by decide⟩,
    ⟨_, rfl, by decide⟩, ⟨_, rfl, by decide⟩, ⟨_, rfl, by decide⟩⟩

theorem witness_FaultingStepChangesOnlyFault :
    ∃ t, step (at8 32 (regs 256 244) 0 [(0, 0x45)]) = .next t ∧ t.fault = some .valueOutOfRange :=
  ⟨_, rfl, by decide⟩

theorem witness_InvalidRegisterOperandFaults :
    8 ≤ (8 : Byte).toNat ∧ 8 ≤ (255 : Byte).toNat ∧ (8 ≤ (0 : Byte).toNat ∨ 8 ≤ (8 : Byte).toNat) := by decide

theorem witness_UnsupportedOperationStopsAndNoProgramReachesIt :
    ∃ t, step (at8 8 (regs 3 244) 0 [(0, 0xA2)]) = .next t :=
  ⟨_, rfl⟩

theorem witness_ValueOutOfRangeNeedsWideRegisters :
    ∃ s t : State, s.Inv ∧ step s = .next t ∧ t.fault = some .valueOutOfRange :=
  ⟨at8 9 (regs 256 256) 0 [(0, 0x45)], _, by decide, rfl, by decide⟩

theorem witness_OutOfBoundsOccasionsAreComplete :
    (∃ s t : State, s.Inv ∧ step s = .next t ∧ t.fault = some .outOfBounds ∧ s.pc = 256) ∧
    (∃ s t : State, s.Inv ∧ step s = .next t ∧ t.fault = some .outOfBounds ∧ s.pc = 255) ∧
    (∃ s t : State, s.Inv ∧ step s = .next t ∧ t.fault = some .outOfBounds ∧ s.pc = 254) ∧
    (∃ s t : State, s.Inv ∧ step s = .next t ∧ t.fault = some .outOfBounds ∧ fetch s = .ok (.push 0)) ∧
    ∃ s t : State, s.Inv ∧ step s = .next t ∧ t.fault = some .outOfBounds ∧ fetch s = .ok (.pop 0) :=
  ⟨⟨at8 8 (regs 0 244) 256 [], _, by decide, rfl, by decide⟩,
    ⟨at8 8 (regs 0 244) 255 [(255, 0x82)], _, by decide, rfl, by decide⟩,
    ⟨at8 8 (regs 0 244) 254 [(254, 0xA2)], _, by decide, rfl, by decide⟩,
    ⟨at8 9 (regs 0 0) 0 [(0, 0x45)], _, by decide, rfl, by decide⟩,
    ⟨at8 9 (regs 0 256) 0 [(0, 0x46)], _, by decide, rfl, by decide⟩⟩

theorem witness_MemoryAccessesFollowTheirRules :
    Memory.wf [(0, 1), (255, 2)] = true ∧ (255 : Nat) < 256 ∧ 256 ≤ (256 : Nat) := by decide

/-- The stored byte is the next opcode: PUSH at 6 stores to 8 (program P6 of the spec). -/
theorem witness_StoreIsSeenByTheNextFetch :
    ∃ s t : State, s.mem.wf = true ∧ exec (.push 0) s = .next t ∧ t.fault = none ∧ t.pc.toNat + 0 < 256 ∧
      t.pc.toNat + 0 = pushAddr s :=
  ⟨at8 8 (regs 1 9) 6 [(6, 0x45)], _, by decide, rfl, by decide⟩

theorem witness_LdiLoadsTheImmediate : (7 : Byte).toNat < 8 ∧ (0 : Byte).toNat < 8 := by decide
theorem witness_PrnEmitsTheRegister : (7 : Byte).toNat < 8 ∧ (0 : Byte).toNat < 8 := by decide
theorem witness_MulMultipliesModuloTwoToTheN : (7 : Byte).toNat < 8 ∧ (0 : Byte).toNat < 8 := by decide

/-- PUSH to address 255 of the largest storable value, and PUSH 7. -/
theorem witness_PushStoresBelowTheStackPointer :
    (pushAddr (at8 32 (regs 255 256) 0 []) < 256 ∧ (at8 32 (regs 255 256) 0 []).x[0] < 256) ∧
    pushAddr (at8 8 (regs 0 0) 0 []) < 256 ∧ (7 : Byte).toNat = 7 := by decide

theorem witness_PopLoadsAndRaisesTheStackPointer :
    (at8 32 (regs 0 255) 0 []).x[7] < 256 ∧ (7 : Byte).toNat < 8 := by decide

theorem witness_AluFollowsItsInterface : 8 ≤ (8 : Nat) ∧ (7 : Nat) < 8 := by decide

theorem witness_StepAtHltFollowsItsRule :
    let s := at8 8 (regs 0 244) 255 [(255, 1)]
    s.isRunning ∧ s.params.WF ∧ s.pc.toNat < 256 ∧ s.mem.get s.pc.toNat = s.params.opc.hlt := by decide

/-- At 254, at 253 with register 8, at 253 with register 7. -/
theorem witness_StepAtLdiFollowsItsRule :
    (let s := at8 8 (regs 0 244) 254 [(254, 0x82)];
      s.isRunning ∧ s.params.WF ∧ s.pc.toNat < 256 ∧ s.mem.get s.pc.toNat = s.params.opc.ldi ∧ 256 ≤ s.pc.toNat + 2) ∧
    (let s := at8 8 (regs 0 244) 253 [(253, 0x82), (254, 8)];
      s.isRunning ∧ s.mem.get s.pc.toNat = s.params.opc.ldi ∧ s.pc.toNat + 2 < 256 ∧
        8 ≤ (s.mem.get (s.pc.toNat + 1)).toNat) ∧
    (let s := at8 8 (regs 0 244) 253 [(253, 0x82), (254, 7)];
      s.isRunning ∧ s.mem.get s.pc.toNat = s.params.opc.ldi ∧ s.pc.toNat + 2 < 256 ∧
        (s.mem.get (s.pc.toNat + 1)).toNat < 8) := by decide

theorem witness_StepAtPrnFollowsItsRule :
    (let s := at8 8 (regs 0 244) 255 [(255, 0x47)];
      s.isRunning ∧ s.params.WF ∧ s.pc.toNat < 256 ∧ s.mem.get s.pc.toNat = s.params.opc.prn ∧ 256 ≤ s.pc.toNat + 1) ∧
    (let s := at8 8 (regs 0 244) 254 [(254, 0x47), (255, 8)];
      s.isRunning ∧ s.mem.get s.pc.toNat = s.params.opc.prn ∧ s.pc.toNat + 1 < 256 ∧
        8 ≤ (s.mem.get (s.pc.toNat + 1)).toNat) ∧
    (let s := at8 8 (regs 0 244) 254 [(254, 0x47), (255, 7)];
      s.isRunning ∧ s.mem.get s.pc.toNat = s.params.opc.prn ∧ s.pc.toNat + 1 < 256 ∧
        (s.mem.get (s.pc.toNat + 1)).toNat < 8) := by decide

theorem witness_StepAtMulFollowsItsRule :
    (let s := at8 8 (regs 0 244) 254 [(254, 0xA2)];
      s.isRunning ∧ s.params.WF ∧ s.pc.toNat < 256 ∧ s.mem.get s.pc.toNat = s.params.opc.mul ∧ 256 ≤ s.pc.toNat + 2) ∧
    (let s := at8 8 (regs 0 244) 253 [(253, 0xA2), (255, 8)];
      s.isRunning ∧ s.mem.get s.pc.toNat = s.params.opc.mul ∧ s.pc.toNat + 2 < 256 ∧
        8 ≤ (s.mem.get (s.pc.toNat + 2)).toNat) ∧
    (let s := at8 8 (regs 0 244) 253 [(253, 0xA2), (254, 7), (255, 7)];
      s.isRunning ∧ s.mem.get s.pc.toNat = s.params.opc.mul ∧ s.pc.toNat + 2 < 256 ∧
        (s.mem.get (s.pc.toNat + 1)).toNat < 8 ∧ (s.mem.get (s.pc.toNat + 2)).toNat < 8) := by decide

/-- Each clause at its bound: at 255; register 8; the address 256; the value 256; the address 255 and value 255. -/
theorem witness_StepAtPushFollowsItsRule :
    (let s := at8 8 (regs 0 244) 255 [(255, 0x45)];
      s.isRunning ∧ s.params.WF ∧ s.pc.toNat < 256 ∧ s.mem.get s.pc.toNat = s.params.opc.push ∧
        ((243 : Nat) : Int) = ((s.x[7] : Int) - 1) % 2 ^ s.params.N ∧ 256 ≤ s.pc.toNat + 1) ∧
    (let s := at8 8 (regs 0 0) 254 [(254, 0x45), (255, 8)];
      ((255 : Nat) : Int) = ((s.x[7] : Int) - 1) % 2 ^ s.params.N ∧ s.pc.toNat + 1 < 256 ∧
        8 ≤ (s.mem.get (s.pc.toNat + 1)).toNat) ∧
    (let s := at8 9 (regs 0 257) 254 [(254, 0x45)];
      ((256 : Nat) : Int) = ((s.x[7] : Int) - 1) % 2 ^ s.params.N ∧ s.pc.toNat + 1 < 256 ∧
        (s.mem.get (s.pc.toNat + 1)).toNat < 8) ∧
    (let s := at8 9 (regs 256 256) 254 [(254, 0x45)];
      ((255 : Nat) : Int) = ((s.x[7] : Int) - 1) % 2 ^ s.params.N ∧ 256 ≤ s.x[0]) ∧
    (let s := at8 9 (regs 255 256) 254 [(254, 0x45)];
      ((255 : Nat) : Int) = ((s.x[7] : Int) - 1) % 2 ^ s.params.N ∧ s.x[0] < 256) := by decide

theorem witness_StepAtPopFollowsItsRule :
    (let s := at8 8 (regs 0 244) 255 [(255, 0x46)];
      s.isRunning ∧ s.params.WF ∧ s.pc.toNat < 256 ∧ s.mem.get s.pc.toNat = s.params.opc.pop ∧ 256 ≤ s.pc.toNat + 1) ∧
    (let s := at8 8 (regs 0 244) 254 [(254, 0x46), (255, 8)];
      s.isRunning ∧ s.pc.toNat + 1 < 256 ∧ 8 ≤ (s.mem.get (s.pc.toNat + 1)).toNat) ∧
    (let s := at8 9 (regs 0 256) 254 [(254, 0x46)];
      s.isRunning ∧ s.pc.toNat + 1 < 256 ∧ (s.mem.get (s.pc.toNat + 1)).toNat < 8 ∧ 256 ≤ s.x[7]) ∧
    (let s := at8 9 (regs 0 255) 254 [(254, 0x46), (255, 7)];
      s.isRunning ∧ s.pc.toNat + 1 < 256 ∧ (s.mem.get (s.pc.toNat + 1)).toNat < 8 ∧ s.x[7] < 256) := by decide

theorem witness_EachInstructionWritesPcAsTheTableSays :
    (∃ t, step (at8 8 (regs 0 244) 253 [(253, 0xA2)]) = .next t ∧ t.fault = none) ∧
    (∃ t, step (at8 8 (regs 0 244) 255 [(255, 1)]) = .next t ∧ t.fault = none) ∧
    ∃ t, step (at8 8 (regs 0 244) 254 [(254, 0xA2)]) = .next t ∧ t.fault ≠ none :=
  ⟨⟨_, rfl, by decide⟩, ⟨_, rfl, by decide⟩, _, rfl, by decide⟩

theorem witness_HltAndPrnFrame :
    ∃ t u v, exec .hlt State.reset = .next t ∧ exec (.prn 7) State.reset = .next u ∧
      exec (.prn 8) State.reset = .next v ∧ v.fault ≠ State.reset.fault :=
  ⟨_, _, _, rfl, rfl, rfl, by decide⟩

theorem witness_LdiMulPopFrame :
    ∃ t u v w, exec (.ldi 7 5) State.reset = .next t ∧ exec (.mul 7 7) State.reset = .next u ∧
      exec (.pop 0) State.reset = .next v ∧ exec (.pop 8) State.reset = .next w ∧ w.fault ≠ State.reset.fault :=
  ⟨_, _, _, _, rfl, rfl, rfl, rfl, by decide⟩

theorem witness_PushFrame :
    ∃ t u, State.reset.mem.wf = true ∧ exec (.push 7) State.reset = .next t ∧ t.mem.get 243 = 243 ∧
      exec (.push 8) State.reset = .next u ∧ u.fault ≠ State.reset.fault :=
  ⟨_, _, rfl, rfl, by decide, rfl, by decide⟩

theorem witness_StackPointerDecrement :
    (0 : Byte).toNat < 8 ∧ 256 ≤ decN (at8 9 (regs 0 0) 0 []).params.N ((at8 9 (regs 0 0) 0 []).reg 7) := by decide

/-- A POP at address 255 of a wide machine, then a PUSH or a POP from 256. -/
theorem witness_StackPointerIncrement :
    ((0 : Byte).toNat < 8 ∧ (at8 9 (regs 0 255) 0 []).reg 7 < 256) ∧
    (∃ t, exec (.pop 0) (at8 9 (regs 0 255) 0 []) = .next t ∧ 256 ≤ t.reg 7 ∧ t.fault = none) ∧
    8 < (at8 9 (regs 255 256) 0 []).params.N ∧ (at8 9 (regs 255 256) 0 []).reg 7 = 256 ∧
    (at8 9 (regs 255 256) 0 []).x[0] < 256 :=
  ⟨by decide, ⟨_, rfl, by decide⟩, by decide⟩

theorem witness_PushThenPopRoundTrip :
    ∃ t, (at8 9 (regs 255 256) 0 []).Inv ∧ (0 : Byte).toNat < 7 ∧ (6 : Byte).toNat < 7 ∧
      exec (.push 0) (at8 9 (regs 255 256) 0 []) = .next t ∧ t.fault = none :=
  ⟨_, by decide, by decide, by decide, rfl, by decide⟩

theorem witness_EightBitStackNeverFaults :
    State.reset.Inv ∧ State.reset.params.N = 8 ∧ (7 : Byte).toNat < 8 ∧ (at8 8 (regs 255 0) 0 []).Inv ∧
    (at8 8 (regs 255 255) 0 []).Inv := by decide

theorem witness_StackTrapsOnWideRegisters :
    256 ≤ pushAddr (at8 9 (regs 0 257) 0 []) ∧
    (pushAddr (at8 9 (regs 256 256) 0 []) < 256 ∧ (0 : Byte).toNat ≠ 7 ∧ 256 ≤ (at8 9 (regs 256 256) 0 []).x[0]) ∧
    256 ≤ (at8 9 (regs 0 256) 0 []).x[7] := by decide

end Sys2Proof.Tests
end

section
/-! Scope (spec/00_scope.md): the parameters of the machine (R5, R8, R9) and what a step does at another width. -/

namespace Sys2Proof.Machine

/-- What a step can do, down to the committed state: it raises, or the fetched instruction commits. -/
theorem step_next_commit {s t : State} (h : step s = .next t) :
    (∃ e, t = raise s e) ∨ ∃ i, fetch s = .ok i ∧ Commit s i t := by
  obtain ⟨-, ⟨e, -, ht⟩ | ⟨i, hi, hx⟩⟩ := step_next h
  · exact .inl ⟨e, ht⟩
  · exact (exec_next hx).imp_right fun hc => ⟨i, hi, hc⟩

/-- A state an instruction commits is the state the step answers. -/
theorem step_of_commit {s t : State} {i : Instr} (hr : s.running = true) (hf : s.fault = none)
    (hi : fetch s = .ok i) (hc : Commit s i t) : step s = .next t := by
  rw [step_running hr hf, hi]
  exact exec_of_commit hc

/- ### The parameters never change -/

theorem Commit.params_eq {s t : State} {i : Instr} (h : Commit s i t) : t.params = s.params := by
  cases h <;> rfl

theorem step_params {s t : State} (h : step s = .next t) : t.params = s.params := by
  obtain ⟨e, rfl⟩ | ⟨i, -, hc⟩ := step_next_commit h
  · rfl
  · exact hc.params_eq

/-- The one state `load` can answer (R213). -/
theorem load_next {bytes : List Byte} {s t : State} (h : load bytes s = .next t) : t = loaded bytes s := by
  unfold load at h
  split at h
  · split at h
    · cases h
    · cases h; rfl
  all_goals cases h

/-- Everything `start` can do (R111). -/
theorem start_eq (s : State) : start s = s ∨ start s = { s with running := true, phase := .started } := by
  unfold start
  split
  · exact .inr rfl
  all_goals exact .inl rfl

theorem deliver_params {e : Event} {s t : State} (h : deliver e s = .next t) : t.params = s.params := by
  cases e with
  | reset => cases h; rfl
  | load bytes => rw [load_next h]; rfl
  | start =>
    cases h
    obtain hs | hs := start_eq s <;> rw [hs]

/-- Settles O12: a step raises or commits, and neither touches the parameters; nor does any event. -/
theorem parametersNeverChange : Obligations.ParametersNeverChange :=
  ⟨fun _ _ => step_params, fun _ _ _ => deliver_params⟩

/- ### The same step at a greater width -/

/-- The same state on the machine whose registers have `N'` bits (R5). -/
def State.withWidth (s : State) (N' : Nat) : State := { s with params := { s.params with N := N' } }

@[simp] theorem State.withWidth_N (s : State) (N' : Nat) : (s.withWidth N').params.N = N' := rfl

@[simp] theorem State.withWidth_reg (s : State) (N' : Nat) (j : RegIdx) : (s.withWidth N').reg j = s.reg j := rfl

@[simp] theorem State.withWidth_sp (s : State) (N' : Nat) : (s.withWidth N').sp = s.sp := rfl

@[simp] theorem State.withWidth_mem (s : State) (N' : Nat) : (s.withWidth N').mem = s.mem := rfl

/-- Fetch and decode do not depend on the register width. -/
@[simp] theorem fetch_withWidth (s : State) (N' : Nat) : fetch (s.withWidth N') = fetch s := rfl

/-- The instruction's arithmetic stays inside the width (90_conflicts.md C4): MUL's product fits, PUSH does not start
from 0, POP's incremented value fits. -/
def NoWrap (s : State) : Instr → Prop
  | .hlt => True
  | .ldi _ _ => True
  | .prn _ => True
  | .mul a b => ∀ (ha : a.toNat < 8) (hb : b.toNat < 8), s.x[a.toNat] * s.x[b.toNat] < 2 ^ s.params.N
  | .push _ => s.reg 7 ≠ 0
  | .pop r => (if r.toNat = 7 then (s.mem.get (s.reg 7)).toNat else s.reg 7) + 1 < 2 ^ s.params.N

theorem lt_two_pow_wider {N N' v : Nat} (hN : N ≤ N') (hv : v < 2 ^ N) : v < 2 ^ N' :=
  hv.trans_le (Nat.pow_le_pow_right (by decide) hN)

/-- A value that fits is reduced to itself at every greater width too. -/
theorem wrapN_wider {N N' v : Nat} (hN : N ≤ N') (hv : v < 2 ^ N) : wrapN N' v = wrapN N v := by
  rw [wrapN_of_lt hv, wrapN_of_lt (lt_two_pow_wider hN hv)]

/-- The decrement does not wrap except from 0 (R166). -/
theorem decN_of_pos {N v : Nat} (h0 : v ≠ 0) (hv : v < 2 ^ N) : decN N v = v - 1 := by
  have hs : v + (2 ^ N - 1) = v - 1 + 2 ^ N := by omega
  rw [decN, wrapN, hs, Nat.add_mod_right, Nat.mod_eq_of_lt (by omega)]

theorem pushAddr_withWidth {s : State} {N' : Nat} (hN : s.params.N ≤ N') (h0 : s.sp ≠ 0)
    (hs : s.sp < 2 ^ s.params.N) : pushAddr (s.withWidth N') = pushAddr s := by
  simp only [pushAddr, State.withWidth_N, State.withWidth_sp, decN_of_pos h0 hs,
    decN_of_pos h0 (lt_two_pow_wider hN hs)]

theorem pushValue_withWidth {s : State} {N' : Nat} (i : RegIdx) (ha : pushAddr (s.withWidth N') = pushAddr s) :
    pushValue i (s.withWidth N') = pushValue i s := by
  simp only [pushValue, ha, State.withWidth_reg]

theorem popSp_withWidth {s : State} {N' w : Nat} {i : RegIdx} (hN : s.params.N ≤ N')
    (hw : (if i = Config.spIdx then w else s.sp) + 1 < 2 ^ s.params.N) :
    popSp i w (s.withWidth N') = popSp i w s :=
  wrapN_wider hN hw

/-- The key fact: what an instruction commits without wrapping, it commits at every greater width. -/
theorem Commit.withWidth {s t : State} {i : Instr} {N' : Nat} (hN : s.params.N ≤ N')
    (hs : s.sp < 2 ^ s.params.N) (hw : NoWrap s i) (h : Commit s i t) :
    Commit (s.withWidth N') i (t.withWidth N') := by
  cases h with
  | hlt => exact .hlt
  | ldi r imm i hr => exact .ldi r imm i hr
  | prn r i hr => exact .prn r i hr
  | mul a b i j ha hb =>
    have hp : s.reg i * s.reg j < 2 ^ s.params.N := by
      simpa [ha, hb, State.reg] using hw (ha ▸ i.isLt) (hb ▸ j.isLt)
    have hm : mulN N' (s.reg i) (s.reg j) = mulN s.params.N (s.reg i) (s.reg j) := wrapN_wider hN hp
    have hc := Commit.mul (s := s.withWidth N') a b i j ha hb
    simp only [State.withWidth_N, State.withWidth_reg, hm] at hc
    exact hc
  | push r i hr ha hv =>
    have hpa := pushAddr_withWidth hN hw hs
    have hpv := pushValue_withWidth i hpa
    have hc := Commit.push (s := s.withWidth N') r i hr (hpa ▸ ha) (hpv ▸ hv)
    simp only [hpa, hpv] at hc
    exact hc
  | pop r i hr ha =>
    have hi : i = Config.spIdx ↔ r.toNat = 7 := by rw [hr, Fin.ext_iff]; rfl
    have hp := popSp_withWidth (w := zextN (s.mem.get s.sp)) (i := i) hN (by simp only [hi]; exact hw)
    have hc := Commit.pop (s := s.withWidth N') r i hr ha
    simp only [State.withWidth_sp, State.withWidth_mem, hp] at hc
    exact hc

/-- Settles O19: the step commits, since it raises nothing, and a commit that wraps nothing is the same at every
greater width. -/
theorem widerMachineAgreesWithoutWrap : Obligations.WiderMachineAgreesWithoutWrap := by
  intro s t N' hInv hN hstep hf hmul hpush hpop
  obtain ⟨-, hreg, -⟩ := hInv
  obtain ⟨⟨hr, hsf⟩, -⟩ := step_next hstep
  obtain ⟨e, rfl⟩ | ⟨i, hi, hc⟩ := step_next_commit hstep
  · cases hf
  · have hw : NoWrap s i := by
      cases i with
      | hlt => trivial
      | ldi r imm => trivial
      | prn r => trivial
      | mul a b => exact fun ha hb => hmul a b ha hb hi
      | push r => exact hpush r hi
      | pop r => exact hpop r hi
    exact step_of_commit (s := s.withWidth N') hr hsf hi (hc.withWidth hN (hreg 7) hw)

end Sys2Proof.Machine
end

section
/-! State (spec/10_state.md): the values at reset, what a step can write in each state element, and the invariant. -/

namespace Sys2Proof.Machine

/- ### The values at reset -/

/-- Settles O1: the reset event answers the reset state of the machine's own parameters, whose memory lists nothing. -/
theorem resetEventGivesResetValues : Obligations.ResetEventGivesResetValues :=
  ⟨rfl, fun s => ⟨State.resetFor s.params, rfl, State.resetFor_reg s.params, rfl, rfl, rfl, rfl,
    fun _ ha => memRead_of_lt ha⟩⟩

/-- The one non-zero value at reset is a byte, so it fits every legal register width (R5, R36). -/
theorem resetFor_reg_lt {p : Params} (hp : p.WF) (j : RegIdx) : (State.resetFor p).reg j < 2 ^ p.N := by
  rw [State.resetFor_reg]
  split
  · exact zextN_lt hp.1 0xF4
  · exact Nat.two_pow_pos p.N

theorem resetFor_inv {p : Params} (hp : p.WF) : (State.resetFor p).Inv :=
  ⟨hp, resetFor_reg_lt hp, nofun, Nat.zero_le _, rfl, nofun, fun _ => rfl⟩

/-- Settles O8: only the registers' bound needs the parameters to be legal, and the default ones are. -/
theorem resetMeetsTheInvariant : Obligations.ResetMeetsTheInvariant :=
  ⟨resetFor_inv (by decide), fun _ => resetFor_inv⟩

/- ### `running` and the history -/

theorem Commit.running_eq_false_iff {s t : State} {i : Instr} (hr : s.running = true) (h : Commit s i t) :
    t.running = false ↔ i = .hlt := by
  cases h <;> simp [hr]

theorem Commit.phase_eq {s t : State} {i : Instr} (h : Commit s i t) : t.phase = s.phase := by
  cases h <;> rfl

/-- Settles O14: no instruction but HLT commits a cleared `running`, a raise leaves it set, and a fetched HLT always
commits. -/
theorem onlyHltClearsRunning : Obligations.OnlyHltClearsRunning := by
  intro s t hstep
  obtain ⟨⟨hr, hf⟩, -⟩ := step_next hstep
  constructor
  · intro ht
    obtain ⟨e, rfl⟩ | ⟨i, hi, hc⟩ := step_next_commit hstep
    · simp [hr] at ht
    · rw [hi, (hc.running_eq_false_iff hr).1 ht]
  · intro hi
    rw [step_of_commit hr hf hi .hlt] at hstep
    cases hstep
    rfl

/- ### The output -/

theorem Commit.out_eq {s t : State} {i : Instr} (h : Commit s i t) :
    t.out = s.out ∨ ∃ (r : Byte) (j : RegIdx), i = .prn r ∧ r.toNat = j.val ∧ t.out = s.out ++ [s.reg j] := by
  cases h with
  | prn r j hr => exact .inr ⟨r, j, rfl, hr, rfl⟩
  | hlt | ldi | mul | push | pop => exact .inl rfl

/-- Settles O15: of the six commits PRN's alone touches the output. -/
theorem outputGrowsOnlyByPrn : Obligations.OutputGrowsOnlyByPrn := by
  intro s t hstep
  obtain ⟨e, rfl⟩ | ⟨i, hi, hc⟩ := step_next_commit hstep
  · exact .inl rfl
  · refine hc.out_eq.imp_right ?_
    rintro ⟨r, j, rfl, hr, ho⟩
    exact ⟨r, hr ▸ j.isLt, hi, by simpa [hr, State.reg] using ho⟩

/- ### The registers -/

/-- A write changes no register but the one it names (R22). -/
theorem State.eq_of_setReg_reg_ne {s : State} {i j : RegIdx} {v : Nat} (h : (s.setReg i v).reg j ≠ s.reg j) :
    i = j := by
  by_contra hij
  simp [hij] at h

/-- Settles O17: each commit writes the registers its `setReg`s name, and a raise writes none. -/
theorem registersChangeOnlyAsTheTableSays : Obligations.RegistersChangeOnlyAsTheTableSays := by
  intro s t j hstep hne
  obtain ⟨e, rfl⟩ | ⟨i, hi, hc⟩ := step_next_commit hstep
  · exact absurd rfl hne
  · cases hc with
    | hlt => exact absurd rfl hne
    | ldi r imm k hr => exact .inl ⟨r, imm, hi, State.eq_of_setReg_reg_ne hne ▸ hr⟩
    | prn r k hr => exact absurd rfl hne
    | mul a b k l ha hb => exact .inr (.inl ⟨a, b, hi, State.eq_of_setReg_reg_ne hne ▸ ha⟩)
    | push r k hr ha hv => exact .inr (.inr (.inl ⟨r, hi, (State.eq_of_setReg_reg_ne hne).symm⟩))
    | pop r k hr ha =>
      refine .inr (.inr (.inr ⟨r, hi, ?_⟩))
      by_cases h7 : j = 7
      · exact .inr h7
      · have hk : (s.setReg k (zextN (s.mem.get s.sp))).reg j ≠ s.reg j := by
          simpa [Ne.symm h7] using hne
        exact .inl (State.eq_of_setReg_reg_ne hk ▸ hr)

theorem State.setReg_reg_lt {s : State} {i : RegIdx} {v b : Nat} (hv : v < b) (h : ∀ j, s.reg j < b) (j : RegIdx) :
    (s.setReg i v).reg j < b := by
  rw [State.setReg_reg]
  split
  · exact hv
  · exact h j

/-- What a commit writes to a register is a byte or a value reduced modulo 2^N, so the bound of R21 is kept. -/
theorem Commit.reg_lt {s t : State} {i : Instr} (hN : 8 ≤ s.params.N) (hs : ∀ j, s.reg j < 2 ^ s.params.N)
    (h : Commit s i t) (j : RegIdx) : t.reg j < 2 ^ s.params.N := by
  cases h with
  | hlt => exact hs j
  | ldi r imm k hr => exact State.setReg_reg_lt (zextN_lt hN imm) hs j
  | prn r k hr => exact hs j
  | mul a b k l ha hb => exact State.setReg_reg_lt (wrapN_lt _ _) hs j
  | push r k hr ha hv => exact State.setReg_reg_lt (wrapN_lt _ _) hs j
  | pop r k hr ha => exact State.setReg_reg_lt (wrapN_lt _ _) (State.setReg_reg_lt (zextN_lt hN _) hs) j

theorem Commit.out_lt {s t : State} {i : Instr} {b : Nat} (hs : ∀ j, s.reg j < b) (ho : ∀ v ∈ s.out, v < b)
    (h : Commit s i t) : ∀ v ∈ t.out, v < b := by
  obtain ht | ⟨r, j, -, -, ht⟩ := h.out_eq
  · rwa [ht]
  · rw [ht, List.forall_mem_append]
    exact ⟨ho, List.forall_mem_singleton.2 (hs j)⟩

/- ### The memory -/

theorem Commit.mem_wf {s t : State} {i : Instr} (hm : s.mem.wf = true) (h : Commit s i t) : t.mem.wf = true := by
  cases h with
  | push r k hr ha hv => exact Memory.wf_set hm ha
  | hlt | ldi | prn | mul | pop => exact hm

/- ### The program counter -/

/-- Every instruction but HLT advances `pc` by its width (R28, R117 (b)). -/
theorem Commit.pc_eq {s t : State} {i : Instr} (h : Commit s i t) :
    t.pc = if i = .hlt then 0 else s.pc + BitVec.ofNat 9 i.width := by
  cases h <;> rfl

/-- After a fetch that succeeded the advance does not wrap (R118). -/
theorem Commit.pc_toNat {s t : State} {i : Instr} (hi : fetch s = .ok i) (h : Commit s i t) :
    t.pc.toNat = if i = .hlt then 0 else s.pc.toNat + i.width := by
  rw [h.pc_eq]
  split
  · rfl
  · exact advance_exact (fetch_ok_fits hi)

theorem Commit.fault_eq {s t : State} {i : Instr} (h : Commit s i t) : t.fault = s.fault := by
  cases h <;> rfl

/-- Settles O50: a raise leaves `pc`, a commit writes 0 or adds the instruction's width, and the width is a column of
the table. -/
theorem eachInstructionWritesPcAsTheTableSays : Obligations.EachInstructionWritesPcAsTheTableSays := by
  intro s t hstep
  obtain ⟨⟨-, hf⟩, -⟩ := step_next hstep
  obtain ⟨e, rfl⟩ | ⟨i, hi, hc⟩ := step_next_commit hstep
  · exact ⟨fun _ => rfl, fun h => by simp at h⟩
  · have hpc := hc.pc_toNat hi
    refine ⟨fun h => absurd (hc.fault_eq.trans hf) h, fun _ => ⟨i, hi, ?_⟩⟩
    cases i <;> exact hpc

/- ### The invariant -/

/-- A raise touches only `fault`, of which the invariant says nothing (R190). -/
theorem raise_inv {s : State} (h : s.Inv) (e : FaultInfo) : (raise s e).Inv := h

/-- What a fetched instruction commits on a Running machine keeps the invariant. -/
theorem Commit.inv {s t : State} {i : Instr} (hr : s.running = true) (hs : s.Inv) (hi : fetch s = .ok i)
    (h : Commit s i t) : t.Inv := by
  obtain ⟨hp, hreg, hout, hpc, hmem, hstart, hstop⟩ := hs
  have hpc' : t.pc.toNat ≤ 256 := by
    rw [h.pc_toNat hi]
    split
    · exact Nat.zero_le _
    · exact fetch_ok_fits hi
  have hstop' : t.running = false → t.pc = 0 := fun ht => by
    rw [h.pc_eq, if_pos ((h.running_eq_false_iff hr).1 ht)]
  unfold State.Inv
  rw [h.params_eq, h.phase_eq]
  exact ⟨hp, h.reg_lt hp.1 hreg, h.out_lt hreg hout, hpc', h.mem_wf hmem, fun _ => hstart hr, hstop'⟩

/-- Settles O9: a step raises or commits, and both keep the invariant. -/
theorem everyStepKeepsTheInvariant : Obligations.EveryStepKeepsTheInvariant := by
  intro s t hs hstep
  obtain ⟨⟨hr, -⟩, -⟩ := step_next hstep
  obtain ⟨e, rfl⟩ | ⟨i, hi, hc⟩ := step_next_commit hstep
  · exact raise_inv hs e
  · exact hc.inv hr hs hi

end Sys2Proof.Machine
end

section
/-! Memory (spec/20_memory.md): the two access primitives, what a fetch reads, and what a PUSH leaves behind. -/

namespace Sys2Proof

variable {ε : Type} {rd : Nat → Except ε Byte}

/- ### What the decoder reads -/

/-- Everything format F2 can answer (R82). -/
theorem readF2_eq_ok_iff {mk : Byte → Instr} {i : Instr} :
    readF2 rd mk = .ok i ↔ ∃ b, rd 1 = .ok b ∧ mk b = i := by
  cases h1 : rd 1 <;> simp [readF2, h1]

/-- Everything format F3 can answer (R83). -/
theorem readF3_eq_ok_iff {mk : Byte → Byte → Instr} {i : Instr} :
    readF3 rd mk = .ok i ↔ ∃ b c, rd 1 = .ok b ∧ rd 2 = .ok c ∧ mk b c = i := by
  cases h1 : rd 1 <;> cases h2 : rd 2 <;> simp [readF3, h1, h2]

/-- A handler's operand reads answer an instruction of that handler, whose operands are the bytes at the offsets
1, 2, ... (R81 to R83). -/
theorem readOperands_eq_ok_iff {h : Opcode} {i : Instr} :
    readOperands rd h = .ok i ↔
      i.opcode = h ∧ List.Forall₂ (fun k b => rd k = .ok b) (List.range' 1 i.operands.length) i.operands := by
  constructor
  · intro hr
    cases h with
    | hlt => cases hr; exact ⟨rfl, .nil⟩
    | prn | push | pop =>
      obtain ⟨b, hb, rfl⟩ := readF2_eq_ok_iff.1 hr
      exact ⟨rfl, .cons hb .nil⟩
    | ldi | mul =>
      obtain ⟨b, c, hb, hc, rfl⟩ := readF3_eq_ok_iff.1 hr
      exact ⟨rfl, .cons hb (.cons hc .nil)⟩
  · rintro ⟨rfl, hops⟩
    cases i with
    | hlt => rfl
    | prn b | push b | pop b =>
      obtain - | ⟨hb, -⟩ := hops
      exact readF2_eq_ok_iff.2 ⟨b, hb, rfl⟩
    | ldi b c | mul b c =>
      obtain - | ⟨hb, - | ⟨hc, -⟩⟩ := hops
      exact readF3_eq_ok_iff.2 ⟨b, c, hb, hc, rfl⟩

/-- The decoder answers an instruction exactly when the reads at the offsets 0, 1, ... answer its encoding. -/
theorem decodeFrom_eq_ok_iff {o : OpcodeMap} {unknown : Byte → ε} {i : Instr} (hw : o.WF) :
    decodeFrom o unknown rd = .ok i ↔
      List.Forall₂ (fun k b => rd k = .ok b) (List.range i.width) (encode o i) := by
  rw [List.range_eq_range', ← operands_length, List.range'_succ, encode, List.forall₂_cons]
  constructor
  · intro hdec
    cases h0 : rd 0 with
    | error e => simp [decodeFrom, h0] at hdec
    | ok op =>
      cases hd : dispatch o op with
      | none => simp [decodeFrom, h0, hd] at hdec
      | some h =>
        simp only [decodeFrom, h0, hd] at hdec
        obtain ⟨rfl, hops⟩ := readOperands_eq_ok_iff.1 hdec
        exact ⟨by rw [dispatch_some hd], hops⟩
  · rintro ⟨h0, hops⟩
    simp only [decodeFrom, h0, dispatch_byteOf hw]
    exact readOperands_eq_ok_iff.2 ⟨rfl, hops⟩

theorem Instr.width_pos (i : Instr) : 0 < i.width := by
  rw [← operands_length]
  exact Nat.succ_pos _

end Sys2Proof

namespace Sys2Proof.Machine

/-- All bytes of an instruction lie inside memory exactly when its last one does (R29). -/
theorem forall_mem_range_width_lt_iff {p : Nat} {i : Instr} :
    (∀ k ∈ List.range i.width, p + k < 256) ↔ p + i.width ≤ 256 := by
  have hpos := i.width_pos
  simp only [List.mem_range]
  constructor
  · intro h
    have hlast := h (i.width - 1) (by omega)
    omega
  · intro h k hk
    omega

/-- Settles O21: the decoder reads the encoding through `codeByte`, and each such read succeeds exactly when its
address is inside memory and answers the cell there. -/
theorem fetchReadsTheEncodingAtPc : Obligations.FetchReadsTheEncodingAtPc := by
  intro s i hw
  calc fetch s = .ok i
      ↔ List.Forall₂ (fun k b => codeByte s k = .ok b) (List.range i.width) (encode s.params.opc i) :=
        decodeFrom_eq_ok_iff hw
    _ ↔ (∀ k ∈ List.range i.width, s.pc.toNat + k < 256) ∧
        List.Forall₂ (fun k b => s.mem.get (s.pc.toNat + k) = b) (List.range i.width) (encode s.params.opc i) := by
        simp only [codeByte_ok, List.forall₂_and_left]
    _ ↔ s.pc.toNat + i.width ≤ 256 ∧
        (List.range i.width).map (fun k => s.mem.get (s.pc.toNat + k)) = encode s.params.opc i := by
        rw [forall_mem_range_width_lt_iff, ← List.forall₂_map_left_iff, List.forall₂_eq_eq_eq]

/- ### The access primitives -/

/-- The bounds check of a write comes first (R53). -/
theorem memWrite_of_ge {m : Memory} {a v : Nat} (ha : 256 ≤ a) : memWrite m a v = .error (.outOfBounds a) :=
  if_neg (Nat.not_lt.2 ha)

/-- The value check of a write inside memory (R53). -/
theorem memWrite_of_value_ge {m : Memory} {a v : Nat} (ha : a < 256) (hv : 256 ≤ v) :
    memWrite m a v = .error (.valueOutOfRange v) :=
  (if_pos ha).trans (if_neg (Nat.not_lt.2 hv))

theorem memRead_set_same {m : Memory} {a : Nat} {v : Byte} (hm : m.wf = true) (ha : a < 256) :
    memRead (m.set a v) a = .ok v :=
  memRead_ok.2 ⟨ha, (Memory.get_set hm).trans (if_pos rfl)⟩

theorem Memory.get_set_of_ne {m : Memory} {a b : Nat} {v : Byte} (hm : m.wf = true) (hb : b ≠ a) :
    (m.set a v).get b = m.get b :=
  (Memory.get_set hm).trans (if_neg hb)

theorem memRead_set_of_ne {m : Memory} {a b : Nat} {v : Byte} (hm : m.wf = true) (hb : b ≠ a) :
    memRead (m.set a v) b = memRead m b := by
  rw [memRead, memRead, Memory.get_set_of_ne hm hb]

/-- Settles O35: one lemma per check, and the write that passes both is `Memory.set`. -/
theorem memoryAccessesFollowTheirRules : Obligations.MemoryAccessesFollowTheirRules := by
  refine ⟨fun _ _ => memRead_of_ge, fun _ _ _ => memWrite_of_ge, fun _ _ _ => memWrite_of_value_ge,
    fun _ _ => memRead_of_lt, fun m a v hm ha hv => ?_⟩
  exact ⟨m.set a (BitVec.ofNat 8 v), memWrite_ok.2 ⟨ha, hv, rfl⟩, Memory.wf_set hm ha, memRead_set_same hm ha,
    fun _ hb => memRead_set_of_ne hm hb⟩

/- ### What a PUSH leaves in memory -/

/-- PUSH's commit is the only one that touches memory, and it touches one cell (R51, R59). -/
theorem Commit.push_of_get_ne {s t : State} {i : Instr} {a : Nat} (hm : s.mem.wf = true) (h : Commit s i t)
    (hne : t.mem.get a ≠ s.mem.get a) : ∃ r, i = .push r ∧ a = pushAddr s := by
  cases h with
  | push r j hr ha hv => exact ⟨r, rfl, by_contra fun hna => hne (Memory.get_set_of_ne hm hna)⟩
  | hlt | ldi | prn | mul | pop => exact absurd rfl hne

/-- Settles O16: a raise leaves memory alone, and of the commits PUSH's alone changes it, in one cell. -/
theorem onlyPushChangesMemory : Obligations.OnlyPushChangesMemory := by
  intro s t a hm hstep hne
  obtain ⟨e, rfl⟩ | ⟨i, hi, hc⟩ := step_next_commit hstep
  · exact absurd rfl hne
  · obtain ⟨r, rfl, ha⟩ := hc.push_of_get_ne hm hne
    exact ⟨r, hi, ha⟩

/-- Every byte of memory after a PUSH that committed: the stored one at the stored address, the old one elsewhere
(R168). -/
theorem Commit.push_get {s t : State} {r : Byte} {a : Nat} (hm : s.mem.wf = true) (hr : r.toNat < 8)
    (h : Commit s (.push r) t) :
    t.mem.get a = if a = pushAddr s then BitVec.ofNat 8 (pushValue ⟨r.toNat, hr⟩ s) else s.mem.get a := by
  cases h with
  | push _ j hj ha hv =>
    obtain rfl : j = ⟨r.toNat, hr⟩ := Fin.ext hj.symm
    exact Memory.get_set hm

/-- Settles O36: a PUSH that did not raise committed, and the next fetch reads the memory it left (R64). -/
theorem storeIsSeenByTheNextFetch : Obligations.StoreIsSeenByTheNextFetch := by
  intro s t r hr k hm hx hf hk
  obtain ⟨e, rfl⟩ | hc := exec_next hx
  · cases hf
  · exact codeByte_ok.2 ⟨hk, hc.push_get hm hr⟩

end Sys2Proof.Machine
end

section
/-! Encoding (spec/30_encoding.md): the decoder and the encoder are inverse to each other, which bytes have a handler,
and the lines of a program file. -/

namespace Sys2Proof

variable {ε : Type} {rd : Nat → Except ε Byte}

/- ### Decoding a list of bytes -/

/-- Everything the decoder can answer: a byte with a handler, and what that handler's operand reads answer (R88). -/
theorem decodeFrom_ok {o : OpcodeMap} {unknown : Byte → ε} {i : Instr} (hd : decodeFrom o unknown rd = .ok i) :
    ∃ op h, rd 0 = .ok op ∧ dispatch o op = some h ∧ readOperands rd h = .ok i := by
  unfold decodeFrom at hd
  split at hd
  · cases hd
  · next op h0 =>
    split at hd
    · cases hd
    · next h hop => exact ⟨op, h, h0, hop, hd⟩

/-- The reads behind an answer of the decoder are the encoding of the answer, whatever the opcode bytes are. -/
theorem forall₂_encode_of_decodeFrom {o : OpcodeMap} {unknown : Byte → ε} {i : Instr}
    (hd : decodeFrom o unknown rd = .ok i) :
    List.Forall₂ (fun k b => rd k = .ok b) (List.range i.width) (encode o i) := by
  obtain ⟨op, h, h0, hop, hr⟩ := decodeFrom_ok hd
  obtain ⟨rfl, hops⟩ := readOperands_eq_ok_iff.1 hr
  rw [List.range_eq_range', ← operands_length, List.range'_succ]
  exact .cons (dispatch_some hop ▸ h0) hops

theorem decode_eq_ok_iff {o : OpcodeMap} {i : Instr} {bs rest : List Byte} :
    decode o bs = .ok (i, rest) ↔
      decodeFrom o .unknownOpcode (byteAt bs) = .ok i ∧ bs.drop i.width = rest := by
  unfold decode
  split
  · next e he => simp [he]
  · next j hj =>
    simp only [hj, Except.ok.injEq, Prod.mk.injEq]
    exact and_congr_right fun hji => hji ▸ Iff.rfl

theorem byteAt_eq_ok_iff {bs : List Byte} {k : Nat} {b : Byte} : byteAt bs k = .ok b ↔ bs[k]? = some b := by
  cases h : bs[k]? <;> simp [byteAt, h]

/-- Reading the offsets 0, 1, ... of a list answers the bytes it begins with. -/
theorem forall₂_byteAt_iff_prefix {bs l : List Byte} :
    List.Forall₂ (fun k b => byteAt bs k = .ok b) (List.range l.length) l ↔ l <+: bs := by
  simp [List.forall₂_iff_get, List.prefix_iff_getElem?, byteAt_eq_ok_iff]

theorem length_encode (o : OpcodeMap) (i : Instr) : (encode o i).length = i.width := operands_length i

/-- Every encoding decodes, and its bytes alone are consumed (R92, R95). -/
theorem decode_encode_append {o : OpcodeMap} (hw : o.WF) (i : Instr) (rest : List Byte) :
    decode o (encode o i ++ rest) = .ok (i, rest) := by
  have hreads := forall₂_byteAt_iff_prefix.2 (List.prefix_append (encode o i) rest)
  rw [length_encode] at hreads
  exact decode_eq_ok_iff.2 ⟨(decodeFrom_eq_ok_iff hw).2 hreads, List.drop_left' (length_encode o i)⟩

theorem eq_encode_append_of_decode {o : OpcodeMap} {i : Instr} {bs rest : List Byte}
    (hd : decode o bs = .ok (i, rest)) : bs = encode o i ++ rest := by
  obtain ⟨hdec, rfl⟩ := decode_eq_ok_iff.1 hd
  have hreads := forall₂_encode_of_decodeFrom hdec
  rw [← length_encode o] at hreads ⊢
  exact (List.prefix_iff_eq_append.1 (forall₂_byteAt_iff_prefix.1 hreads)).symm

/- ### The bytes without a handler -/

/-- The 256 bytes, in ascending order. -/
def allBytes : List Byte := (List.finRange 256).map BitVec.ofFin

theorem mem_allBytes (b : Byte) : b ∈ allBytes := List.mem_map.2 ⟨b.toFin, List.mem_finRange _, rfl⟩

theorem allBytes_nodup : allBytes.Nodup :=
  (List.nodup_finRange 256).map fun _ _ h => congrArg BitVec.toFin h

theorem length_allBytes : allBytes.length = 256 := by simp [allBytes]

/-- A list without repetitions occupies as many of the 256 byte values as it is long. -/
theorem countP_mem_allBytes {bs : List Byte} (h : bs.Nodup) : allBytes.countP (· ∈ bs) = bs.length := by
  have hperm : (allBytes.filter (· ∈ bs)).Perm bs :=
    (List.perm_ext_iff_of_nodup (allBytes_nodup.filter _) h).2 fun b => by simp [mem_allBytes]
  rw [List.countP_eq_length_filter, hperm.length_eq]

/-- 6 of the 256 values are registered, so 250 are not (R90). -/
theorem countP_dispatch_isNone {o : OpcodeMap} (hw : o.WF) :
    allBytes.countP (fun op => (dispatch o op).isNone) = 250 := by
  have hmem : allBytes.countP (· ∈ o.bytes) = 6 := countP_mem_allBytes hw.1
  have hnone : allBytes.countP (fun op => (dispatch o op).isNone) = allBytes.countP (¬ · ∈ o.bytes) :=
    List.countP_congr fun op _ => by simp [dispatch_none]
  have hsplit := List.length_eq_countP_add_countP (l := allBytes) (· ∈ o.bytes)
  simp only [decide_eq_true_eq, length_allBytes, hmem, ← hnone] at hsplit
  omega

end Sys2Proof

namespace Sys2Proof.Machine

/-- Settles O22: the decoder's reads of the list answer the encoding it begins with. -/
theorem decodeOfEncodeIsTheInstruction : Obligations.DecodeOfEncodeIsTheInstruction :=
  fun _ i rest hw => decode_encode_append hw i rest

/-- Settles O23: the bytes the decoder read are the encoding, and the bytes left are those after it. -/
theorem encodeOfDecodeIsTheBytes : Obligations.EncodeOfDecodeIsTheBytes :=
  fun _ _ _ _ => eq_encode_append_of_decode

/-- Settles O25: the count is that of the bytes outside a list of six distinct ones. -/
theorem dispatchRejects250Bytes : Obligations.DispatchRejects250Bytes := fun _ hw =>
  ⟨dispatch_byteOf hw, fun _ => dispatch_none, dispatch_none.2 hw.2,
    List.countP_map.symm.trans (countP_dispatch_isNone hw)⟩

/-- Settles O24: six words, one for each row of the table, and two lists of bytes, all fixed. -/
theorem wordsOfTheTableDecode : Obligations.WordsOfTheTableDecode := by
  unfold Obligations.WordsOfTheTableDecode
  decide

/- ### The lines of a program file -/

/-- The character that stands for a binary digit (R96). -/
def bitChar (b : Bool) : Char := if b then '1' else '0'

theorem bitLine_eq (b : Byte) :
    bitLine b = (List.range 8).map fun k => bitChar (b.toNat.testBit (8 - (k + 1))) := rfl

theorem length_bitLine (b : Byte) : (bitLine b).length = 8 := by simp [bitLine]

/-- One digit doubles what was read and adds itself (R57). -/
theorem parseBits_cons_bitChar (acc : Nat) (d : Bool) (cs : List Char) :
    parseBits acc (bitChar d :: cs) = parseBits (2 * acc + d.toNat) cs := by
  cases d <;> rfl

/-- The low `n` bits of a number, the highest first, are read as that number modulo 2^n (R57, R96). -/
theorem parseBits_testBits (v n acc : Nat) :
    parseBits acc ((List.range n).map fun k => bitChar (v.testBit (n - (k + 1)))) = some (acc * 2 ^ n + v % 2 ^ n) := by
  induction n generalizing acc with
  | zero => simp [parseBits, Nat.mod_one]
  | succ n ih =>
    rw [List.range_succ_eq_map, List.map_cons, List.map_map, parseBits_cons_bitChar]
    simp only [Function.comp_def, Nat.succ_eq_add_one, Nat.zero_add, Nat.add_sub_cancel, Nat.add_sub_add_right, ih,
      Nat.mod_pow_succ, Nat.toNat_testBit, Option.some.injEq]
    ring

theorem parseBits_bitLine (b : Byte) : parseBits 0 (bitLine b) = some b.toNat := by
  rw [bitLine_eq, parseBits_testBits b.toNat 8 0, Nat.mod_eq_of_lt b.isLt]
  simp

/-- Anything after the eighth character is ignored (R96). -/
theorem parseKept_bitLine_append (b : Byte) (tail : Line) : parseKept (bitLine b ++ tail) = .ok b := by
  have hlen : ¬ (bitLine b ++ tail).length < 8 := by
    rw [List.length_append, length_bitLine]
    omega
  rw [parseKept, if_neg hlen, List.take_left' (length_bitLine b), parseBits_bitLine]
  simp

/-- A line that begins with a binary digit is neither a comment nor blank (R96). -/
theorem parseLine_cons_bitChar (d : Bool) (cs : Line) :
    parseLine (bitChar d :: cs) = (parseKept (bitChar d :: cs)).map some := by
  cases d <;> simp [bitChar, parseLine, isBlank]

theorem parseLine_bitLine_append (b : Byte) (tail : Line) : parseLine (bitLine b ++ tail) = .ok (some b) := by
  have hline : parseLine (bitLine b ++ tail) = (parseKept (bitLine b ++ tail)).map some :=
    parseLine_cons_bitChar _ _
  rw [hline, parseKept_bitLine_append]
  rfl

/-- Settles O59: a line of 8 digits is kept and its digits are the byte's bits, bit 7 first. -/
theorem programFileLinesAreRead : Obligations.ProgramFileLinesAreRead :=
  ⟨parseLine_bitLine_append, length_bitLine, fun _ => rfl, rfl⟩

end Sys2Proof.Machine
end

section
/-! Loop and dispatch (spec/40_loop_dispatch.md): when a step is defined, what it runs, how far it moves the program
counter, and `start`. -/

namespace Sys2Proof

/-- The decoder reads a byte only through `rd`, so a reader that also answers the bytes read decodes the same
instruction, whatever the opcode bytes are. -/
theorem decodeFrom_mono {ε ε' : Type} {o : OpcodeMap} {unknown : Byte → ε} {unknown' : Byte → ε'}
    {rd : Nat → Except ε Byte} {rd' : Nat → Except ε' Byte} {i : Instr}
    (hrd : ∀ k b, rd k = .ok b → rd' k = .ok b) (hd : decodeFrom o unknown rd = .ok i) :
    decodeFrom o unknown' rd' = .ok i := by
  obtain ⟨op, h, h0, hop, hr⟩ := decodeFrom_ok hd
  obtain ⟨hi, hops⟩ := readOperands_eq_ok_iff.1 hr
  simp only [decodeFrom, hrd 0 op h0, hop]
  exact readOperands_eq_ok_iff.2 ⟨hi, hops.imp hrd⟩

/-- Every instruction but HLT has an operand byte (R81 to R83). -/
theorem Instr.two_le_width {i : Instr} (h : i ≠ .hlt) : 2 ≤ i.width := by
  cases i with
  | hlt => exact absurd rfl h
  | ldi | prn | mul | push | pop => simp [Instr.width, Instr.opcode, Opcode.width]

end Sys2Proof

namespace Sys2Proof.Machine

/- ### When a step is defined -/

theorem lifecycle_eq_faulted {s : State} {k : FaultKind} : s.lifecycle = .faulted k ↔ s.fault = some k := by
  unfold State.lifecycle
  cases s.fault <;> cases s.running <;> by_cases h : s.phase = .started <;> simp [h]

/-- The lifecycle state Halted, read off the fields and the history (R110). -/
theorem lifecycle_eq_halted {s : State} :
    s.lifecycle = .halted ↔ s.running = false ∧ s.fault = none ∧ s.phase = .started := by
  unfold State.lifecycle
  cases s.fault <;> cases s.running <;> by_cases h : s.phase = .started <;> simp [h]

theorem step_of_idle {s : State} (h : s.lifecycle = .idle) : step s = .fault .idle := by
  simp [step, h]

theorem step_of_halted {s : State} (h : s.lifecycle = .halted) : step s = .fault .halted := by
  simp [step, h]

theorem step_of_faulted {s : State} {k : FaultKind} (h : s.lifecycle = .faulted k) :
    step s = .fault (.faulted k) := by
  simp [step, h]

/-- Settles O6: the three lifecycle states other than Running, each read off its fields. -/
theorem stoppedMachineHasNoStep : Obligations.StoppedMachineHasNoStep := fun _ =>
  ⟨fun _ hf => step_of_faulted (lifecycle_eq_faulted.2 hf),
    fun hf hr hp => step_of_halted (lifecycle_eq_halted.2 ⟨hr, hf, hp⟩),
    fun hf hr hp => step_of_idle (lifecycle_eq_idle.2 ⟨hr, hf, hp⟩)⟩

/-- A Running machine always has a next state: a fetch that raises and every instruction answer one (R14, R112). -/
theorem step_total {s : State} (h : s.isRunning) : ∃ t, step s = .next t := by
  rw [step_running h.1 h.2]
  cases fetch s with
  | error e => exact ⟨_, rfl⟩
  | ok i => exact exec_total i s

theorem step_fault_of_not_running {s : State} (h : ¬ s.isRunning) : ∃ f, step s = .fault f := by
  cases hl : s.lifecycle with
  | idle => exact ⟨_, step_of_idle hl⟩
  | running => exact absurd (lifecycle_eq_running.1 hl) h
  | halted => exact ⟨_, step_of_halted hl⟩
  | faulted k => exact ⟨_, step_of_faulted hl⟩

/-- Settles O7: a step that answers was taken by a Running machine, which always answers; any other machine stops. -/
theorem stepDefinedExactlyWhenRunning : Obligations.StepDefinedExactlyWhenRunning := fun _ =>
  ⟨⟨fun ⟨_, h⟩ => (step_next h).1, step_total⟩, step_fault_of_not_running⟩

/- ### The program counter along a run -/

/-- Settles O11: a raise leaves `pc`, and a commit writes 0 or the address after an instruction that lies in memory. -/
theorem pcStaysInRange : Obligations.PcStaysInRange := by
  refine ⟨rfl, fun s t hs hstep => ?_⟩
  obtain ⟨e, rfl⟩ | ⟨i, hi, hc⟩ := step_next_commit hstep
  · exact hs
  · rw [hc.pc_toNat hi]
    split
    · exact Nat.zero_le _
    · exact fetch_ok_fits hi

/-- Every step stops the machine or moves `pc` up by at least 2, inside memory: only HLT has a single byte (R116). -/
theorem step_stops_or_advances {s t : State} (h : step s = .next t) :
    ¬ t.isRunning ∨ s.pc.toNat + 2 ≤ t.pc.toNat ∧ t.pc.toNat ≤ 256 := by
  obtain ⟨⟨hr, -⟩, -⟩ := step_next h
  obtain ⟨e, rfl⟩ | ⟨i, hi, hc⟩ := step_next_commit h
  · exact .inl fun ⟨_, hf⟩ => by simp at hf
  · by_cases hh : i = .hlt
    · exact .inl fun ⟨ht, _⟩ => by simp [(hc.running_eq_false_iff hr).2 hh] at ht
    · have hw := Instr.two_le_width hh
      have hfit := fetch_ok_fits hi
      rw [hc.pc_toNat hi, if_neg hh]
      exact .inr ⟨by omega, hfit⟩

/-- A run is its first step and then the run from there. -/
theorem run_succ_of_step {s u : State} (h : step s = .next u) (k : Nat) :
    Host.Core.run core (k + 1) s = Host.Core.run core k u := by
  have hc : core.step s = .next u := h
  simp only [Host.Core.run, hc]

/-- At most `n` advances of 2 bytes fit between `pc` and the end of memory, and the step after them stops. -/
theorem run_stops_within {n : Nat} {s : State} (hs : s.isRunning) (hn : 256 ≤ s.pc.toNat + 2 * n) :
    ∃ (k : Nat) (t : State), k ≤ n + 1 ∧ Host.Core.run core k s = .next t ∧ ¬ t.isRunning := by
  induction n generalizing s with
  | zero =>
    obtain ⟨u, hu⟩ := step_total hs
    obtain hstop | ⟨hadv, hle⟩ := step_stops_or_advances hu
    · exact ⟨1, u, le_rfl, run_succ_of_step hu 0, hstop⟩
    · omega
  | succ n ih =>
    obtain ⟨u, hu⟩ := step_total hs
    by_cases hur : u.isRunning
    · obtain hstop | ⟨hadv, -⟩ := step_stops_or_advances hu
      · exact absurd hur hstop
      · obtain ⟨k, t, hk, hrun, ht⟩ := ih hur (by omega)
        exact ⟨k + 1, t, by omega, (run_succ_of_step hu k).trans hrun, ht⟩
    · exact ⟨1, u, by omega, run_succ_of_step hu 0, hur⟩

/-- Settles O13: 128 advances of 2 bytes reach the end of memory from any `pc`. -/
theorem everyRunEndsWithin129Steps : Obligations.EveryRunEndsWithin129Steps :=
  fun s hs => run_stops_within hs (Nat.le_add_left (2 * 128) s.pc.toNat)

/- ### Earlier output -/

/-- The same state with values emitted before those in `out` (R32). -/
def State.withEarlier (s : State) (earlier : List Nat) : State := { s with out := earlier ++ s.out }

/-- Fetch and decode do not read the output. -/
@[simp] theorem fetch_withEarlier (s : State) (earlier : List Nat) : fetch (s.withEarlier earlier) = fetch s := rfl

section
variable (s : State) (earlier : List Nat)

theorem ldiCore_withEarlier (r imm : Byte) :
    ldiCore r imm (s.withEarlier earlier) = (ldiCore r imm s).map (·.withEarlier earlier) := by
  simp only [ldiCore]
  cases regCheck r.toNat <;> rfl

theorem State.emit_withEarlier (v : Nat) : (s.withEarlier earlier).emit v = (s.emit v).withEarlier earlier := by
  simp [State.emit, State.withEarlier]

theorem prnCore_withEarlier (r : Byte) :
    prnCore r (s.withEarlier earlier) = (prnCore r s).map (·.withEarlier earlier) := by
  simp only [prnCore, State.emit_withEarlier]
  cases regCheck r.toNat <;> rfl

theorem mulCore_withEarlier (a b : Byte) :
    mulCore a b (s.withEarlier earlier) = (mulCore a b s).map (·.withEarlier earlier) := by
  simp only [mulCore, alu, AluOp.compute]
  cases regCheck a.toNat <;> cases regCheck b.toNat <;> rfl

theorem pushCore_withEarlier (r : Byte) :
    pushCore r (s.withEarlier earlier) = (pushCore r s).map (·.withEarlier earlier) := by
  have hm (i : RegIdx) : memWrite (s.withEarlier earlier).mem (pushAddr (s.withEarlier earlier))
      (pushValue i (s.withEarlier earlier)) = memWrite s.mem (pushAddr s) (pushValue i s) := rfl
  simp only [pushCore, hm]
  cases regCheck r.toNat with
  | error e => rfl
  | ok i =>
    simp only [bind, Except.bind]
    cases memWrite s.mem (pushAddr s) (pushValue i s) <;> rfl

theorem popCore_withEarlier (r : Byte) :
    popCore r (s.withEarlier earlier) = (popCore r s).map (·.withEarlier earlier) := by
  have hm : memRead (s.withEarlier earlier).mem (s.withEarlier earlier).sp = memRead s.mem s.sp := rfl
  simp only [popCore, hm]
  cases regCheck r.toNat <;> cases memRead s.mem s.sp <;> rfl

end

/-- An instruction whose handler passes the earlier output through ends with it in front (R13). -/
theorem complete_withEarlier {s t : State} {r r' : Except FaultInfo State} {earlier : List Nat}
    (hr : r' = r.map (·.withEarlier earlier)) (h : complete s r = .next t) :
    complete (s.withEarlier earlier) r' = .next (t.withEarlier earlier) := by
  subst hr
  cases r <;> cases h <;> rfl

/-- The key fact: an instruction, committing or raising, passes the earlier output through. -/
theorem exec_withEarlier {i : Instr} {s t : State} (earlier : List Nat) (h : exec i s = .next t) :
    exec i (s.withEarlier earlier) = .next (t.withEarlier earlier) := by
  cases i with
  | hlt => cases h; rfl
  | ldi r imm => exact complete_withEarlier (ldiCore_withEarlier s earlier r imm) h
  | prn r => exact complete_withEarlier (prnCore_withEarlier s earlier r) h
  | mul a b => exact complete_withEarlier (mulCore_withEarlier s earlier a b) h
  | push r => exact complete_withEarlier (pushCore_withEarlier s earlier r) h
  | pop r => exact complete_withEarlier (popCore_withEarlier s earlier r) h

/-- Settles O18: the fetch does not see the output, and neither a raise nor an instruction reads it. -/
theorem earlierOutputInfluencesNothing : Obligations.EarlierOutputInfluencesNothing := by
  intro s t earlier hstep
  obtain ⟨⟨hr, hf⟩, hcases⟩ := step_next hstep
  change step (s.withEarlier earlier) = .next (t.withEarlier earlier)
  rw [step_running (s := s.withEarlier earlier) hr hf, fetch_withEarlier]
  obtain ⟨e, he, rfl⟩ | ⟨i, hi, hx⟩ := hcases
  · rw [he]
    rfl
  · rw [hi]
    exact exec_withEarlier earlier hx

/- ### `start` -/

theorem start_of_idle {s : State} (h : s.lifecycle = .idle) :
    start s = { s with running := true, phase := .started } := by
  simp [start, h]

theorem start_of_not_idle {s : State} (h : s.lifecycle ≠ .idle) : start s = s := by
  unfold start
  split
  · next hl => exact absurd hl h
  all_goals rfl

/-- Settles O4: Idle is the one lifecycle state `start` acts on, and each premise of the second clause shuts it out. -/
theorem startSetsRunningOnlyWhenIdle : Obligations.StartSetsRunningOnlyWhenIdle := by
  refine fun s => ⟨fun hf hr hp => ?_, fun h => ?_⟩
  · exact congrArg _ (start_of_idle (lifecycle_eq_idle.2 ⟨hr, hf, hp⟩))
  · refine congrArg _ (start_of_not_idle fun hl => ?_)
    obtain ⟨hr, hf, hp⟩ := lifecycle_eq_idle.1 hl
    obtain ⟨hr', -⟩ | hf' | hp' := h
    · simp [hr] at hr'
    · exact hf' hf
    · exact hp hp'

/- ### What a step fetches and runs -/

/-- Of `n` ascending addresses those below `m` come first. -/
theorem filter_lt_map_add_range (a m n : Nat) :
    ((List.range n).map (a + ·)).filter (· < m) = (List.range (min n (m - a))).map (a + ·) := by
  induction n with
  | zero => simp
  | succ n ih =>
    rw [List.range_succ, List.map_append, List.filter_append, ih]
    by_cases h : a + n < m
    · have hmin : min (n + 1) (m - a) = min n (m - a) + 1 := by omega
      have hn : min n (m - a) = n := by omega
      simp [hmin, hn, h, List.range_succ]
    · have hmin : min (n + 1) (m - a) = min n (m - a) := by omega
      simp [hmin, h]

/-- The bytes the decoder is shown are the cells from `pc` on that lie in memory (R57). -/
theorem codeByte_of_getElem?_codeBytes {s : State} {k : Nat} {b : Byte} (h : s.codeBytes[k]? = some b) :
    codeByte s k = .ok b := by
  rw [State.codeBytes, filter_lt_map_add_range, List.map_map, List.getElem?_map, Option.map_eq_some_iff] at h
  obtain ⟨j, hj, rfl⟩ := h
  obtain ⟨hlen, rfl⟩ := List.getElem?_eq_some_iff.1 hj
  have hk : k < min 3 (256 - s.pc.toNat) := by simpa using hlen
  rw [List.getElem_range]
  exact codeByte_ok.2 ⟨by omega, rfl⟩

/-- Settles O20: the decoder reads the listed bytes, and the fetch reads the same ones where they lie in memory. -/
theorem stepRunsTheDecodedInstruction : Obligations.StepRunsTheDecodedInstruction := by
  intro s i rest hs hd
  obtain ⟨hdec, -⟩ := decode_eq_ok_iff.1 hd
  have hi : fetch s = .ok i :=
    decodeFrom_mono (fun _ _ hb => codeByte_of_getElem?_codeBytes (byteAt_eq_ok_iff.1 hb)) hdec
  rw [step_running hs.1 hs.2, hi]

/-- A fetch at 256 or above reads no byte (R113, R29). -/
theorem fetch_of_ge {s : State} (h : 256 ≤ s.pc.toNat) : fetch s = .error (.outOfBounds s.pc.toNat) := by
  simp [fetch, decodeFrom, codeByte, h]

/-- Settles O26: the fetch raises before anything is decoded, and a raise only sets `fault`. -/
theorem fetchPastMemoryFaults : Obligations.FetchPastMemoryFaults := by
  intro s hs hp
  refine ⟨fetch_of_ge hp, ?_⟩
  rw [step_running hs.1 hs.2, fetch_of_ge hp]
  rfl

end Sys2Proof.Machine
end

section
/-! System (spec/41_system.md): what HLT writes, and the frame of the instructions that write no register and no
memory. -/

namespace Sys2Proof.Machine

/- ### HLT -/

/-- Settles O37: HLT reads no operand, so it always commits. -/
theorem hltHaltsAndRewindsPc : Obligations.HltHaltsAndRewindsPc := fun _ => exec_of_commit .hlt

/-- The opcode byte alone is a whole HLT, so it is fetched wherever that byte lies in memory, at address 255 too
(R81, R130). -/
theorem fetch_hlt {s : State} (hw : s.params.WF) (hp : s.pc.toNat < 256)
    (ho : s.mem.get s.pc.toNat = s.params.opc.hlt) : fetch s = .ok .hlt :=
  fetch_of_opcode (h := .hlt) hw hp ho

/-- Settles O44: the fetch reads the opcode byte and nothing more, and HLT commits. -/
theorem stepAtHltFollowsItsRule : Obligations.StepAtHltFollowsItsRule :=
  fun _ hs hw hp ho => step_of_commit hs.1 hs.2 (fetch_hlt hw hp ho) .hlt

/- ### What no instruction changes -/

theorem Commit.running_eq {s t : State} {i : Instr} (h : Commit s i t) (hi : i ≠ .hlt) : t.running = s.running := by
  cases h with
  | hlt => exact absurd rfl hi
  | ldi | prn | mul | push | pop => rfl

section
variable {s t : State} {i : Instr} (h : exec i s = .next t)
include h

theorem exec_params : t.params = s.params := by
  obtain ⟨e, rfl⟩ | hc := exec_next h
  · rfl
  · exact hc.params_eq

theorem exec_phase : t.phase = s.phase := by
  obtain ⟨e, rfl⟩ | hc := exec_next h
  · rfl
  · exact hc.phase_eq

theorem exec_running (hi : i ≠ .hlt) : t.running = s.running := by
  obtain ⟨e, rfl⟩ | hc := exec_next h
  · rfl
  · exact hc.running_eq hi

/-- A fault that changed was raised, and a raise changes nothing else (R190). -/
theorem exec_eq_of_fault_ne (hf : t.fault ≠ s.fault) : t = { s with fault := t.fault } := by
  obtain ⟨e, rfl⟩ | hc := exec_next h
  · rfl
  · exact absurd hc.fault_eq hf

end

/- ### The frame of HLT and PRN -/

/-- HLT and PRN write no register and no memory cell, whether they raise or commit (R25, R51). -/
theorem exec_hlt_or_prn_reg_mem {s t : State} {i : Instr} (hi : i = .hlt ∨ ∃ r, i = .prn r)
    (h : exec i s = .next t) : (∀ j : RegIdx, t.reg j = s.reg j) ∧ ∀ a, t.mem.get a = s.mem.get a := by
  obtain ⟨e, rfl⟩ | hc := exec_next h
  · exact ⟨fun _ => rfl, fun _ => rfl⟩
  · cases hc with
    | hlt | prn => exact ⟨fun _ => rfl, fun _ => rfl⟩
    | ldi | mul | push | pop => simp at hi

/-- Settles O51: registers and memory by the two commits, HLT's output and fault by its one answer, and the rest as for
every instruction. -/
theorem hltAndPrnFrame : Obligations.HltAndPrnFrame := by
  intro s t i hi hx
  obtain ⟨hreg, hmem⟩ := exec_hlt_or_prn_reg_mem hi hx
  refine ⟨hreg, hmem, ?_, exec_running hx, exec_eq_of_fault_ne hx, exec_params hx, exec_phase hx⟩
  rintro rfl
  rw [hltHaltsAndRewindsPc s] at hx
  cases hx
  exact ⟨rfl, rfl⟩

end Sys2Proof.Machine
end

section
/-! Data (spec/42_data.md): what LDI and PRN write and when they raise, and the frame of the instructions that load a
register. -/

namespace Sys2Proof.Machine

/- ### LDI and PRN after their operand reads -/

/-- Settles O38: the index check passes, so LDI commits. -/
theorem ldiLoadsTheImmediate : Obligations.LdiLoadsTheImmediate :=
  fun _ r imm h => exec_of_commit (.ldi r imm ⟨r.toNat, h⟩ rfl)

/-- Settles O39: the index check passes, so PRN commits. -/
theorem prnEmitsTheRegister : Obligations.PrnEmitsTheRegister :=
  fun _ r h => exec_of_commit (.prn r ⟨r.toNat, h⟩ rfl)

/-- The index check is LDI's only one after its operand reads (R140). -/
theorem exec_ldi_of_ge {s : State} {r imm : Byte} (h : 8 ≤ r.toNat) :
    exec (.ldi r imm) s = .next (raise s (.invalidRegister r.toNat)) := by
  have hc : ldiCore r imm s = .error (.invalidRegister r.toNat) := by simp [ldiCore, h, bind, Except.bind]
  exact complete_next.2 (.inr ⟨_, hc, rfl⟩)

/-- The index check is PRN's only one after its operand read (R142). -/
theorem exec_prn_of_ge {s : State} {r : Byte} (h : 8 ≤ r.toNat) :
    exec (.prn r) s = .next (raise s (.invalidRegister r.toNat)) := by
  have hc : prnCore r s = .error (.invalidRegister r.toNat) := by simp [prnCore, h, bind, Except.bind]
  exact complete_next.2 (.inr ⟨_, hc, rfl⟩)

/- ### A whole step -/

theorem step_of_fetch_error {s : State} {e : FaultInfo} (hs : s.isRunning) (h : fetch s = .error e) :
    step s = .next (raise s e) := by
  rw [step_running hs.1 hs.2, h]

theorem step_of_fetch_ok {s : State} {i : Instr} (hs : s.isRunning) (h : fetch s = .ok i) : step s = exec i s := by
  rw [step_running hs.1 hs.2, h]

/-- Settles O45: the operand reads come first, so a byte outside memory is reported before the index is checked. -/
theorem stepAtLdiFollowsItsRule : Obligations.StepAtLdiFollowsItsRule := by
  intro s hs hw hp ho
  have hfetch : fetch s = readF3 (codeByte s) .ldi := fetch_of_opcode (h := .ldi) hw hp ho
  refine ⟨fun hend => ?_, fun hin hr => ?_, fun hin hr => ?_⟩
  · exact step_of_fetch_error hs (hfetch.trans (readF3_error hend))
  · exact (step_of_fetch_ok hs (hfetch.trans (readF3_ok hin))).trans (exec_ldi_of_ge hr)
  · exact (step_of_fetch_ok hs (hfetch.trans (readF3_ok hin))).trans (ldiLoadsTheImmediate s _ _ hr)

/-- Settles O46: the operand read comes first, so a byte outside memory is reported before the index is checked. -/
theorem stepAtPrnFollowsItsRule : Obligations.StepAtPrnFollowsItsRule := by
  intro s hs hw hp ho
  have hfetch : fetch s = readF2 (codeByte s) .prn := fetch_of_opcode (h := .prn) hw hp ho
  refine ⟨fun hend => ?_, fun hin hr => ?_, fun hin hr => ?_⟩
  · exact step_of_fetch_error hs (hfetch.trans (readF2_error hend))
  · exact (step_of_fetch_ok hs (hfetch.trans (readF2_ok hin))).trans (exec_prn_of_ge hr)
  · exact (step_of_fetch_ok hs (hfetch.trans (readF2_ok hin))).trans (prnEmitsTheRegister s _ hr)

/- ### The frame of LDI, MUL and POP -/

theorem Commit.mem_eq {s t : State} {i : Instr} (h : Commit s i t) (hi : ∀ r, i ≠ .push r) : t.mem = s.mem := by
  cases h with
  | push r => exact absurd rfl (hi r)
  | hlt | ldi | prn | mul | pop => rfl

theorem exec_mem {s t : State} {i : Instr} (h : exec i s = .next t) (hi : ∀ r, i ≠ .push r) : t.mem = s.mem := by
  obtain ⟨e, rfl⟩ | hc := exec_next h
  · rfl
  · exact hc.mem_eq hi

theorem exec_out {s t : State} {i : Instr} (h : exec i s = .next t) (hi : ∀ r, i ≠ .prn r) : t.out = s.out := by
  obtain ⟨e, rfl⟩ | hc := exec_next h
  · rfl
  · obtain ho | ⟨r, -, hr, -⟩ := hc.out_eq
    · exact ho
    · exact absurd hr (hi r)

/-- A register the operand byte does not name is not the one written (R22). -/
theorem State.setReg_reg_of_toNat_ne {s : State} {r : Byte} {i j : RegIdx} {v : Nat} (hr : r.toNat = i.val)
    (hj : j.val ≠ r.toNat) : (s.setReg i v).reg j = s.reg j := by
  rw [State.setReg_reg, if_neg]
  rintro rfl
  exact hj hr.symm

/-- LDI, MUL and POP write their first operand's register, and POP register 7, and no other (R25). -/
theorem Commit.reg_eq_of_not_destination {s t : State} {r b : Byte} {i : Instr} {j : RegIdx} (h : Commit s i t)
    (hi : i = .ldi r b ∨ i = .mul r b ∨ i = .pop r) (hj : j.val ≠ r.toNat) (h7 : i = .pop r → j ≠ 7) :
    t.reg j = s.reg j := by
  obtain rfl | rfl | rfl := hi
  · cases h with
    | ldi _ _ k hk => exact State.setReg_reg_of_toNat_ne hk hj
  · cases h with
    | mul _ _ k l hk hl => exact State.setReg_reg_of_toNat_ne hk hj
  · cases h with
    | pop _ k hk ha =>
      calc ((s.setReg k _).setReg Config.spIdx _).reg j
          = (s.setReg k _).reg j := by rw [State.setReg_reg, if_neg (h7 rfl).symm]
        _ = s.reg j := State.setReg_reg_of_toNat_ne hk hj

/-- Settles O52: registers by the three commits, and the rest as for every instruction that is not PUSH, PRN or HLT. -/
theorem ldiMulPopFrame : Obligations.LdiMulPopFrame := by
  intro s t r b i hi hx
  have hpush (q : Byte) : i ≠ .push q := by obtain rfl | rfl | rfl := hi <;> nofun
  have hprn (q : Byte) : i ≠ .prn q := by obtain rfl | rfl | rfl := hi <;> nofun
  have hhlt : i ≠ .hlt := by obtain rfl | rfl | rfl := hi <;> nofun
  refine ⟨fun j hj h7 => ?_, fun a => by rw [exec_mem hx hpush], exec_out hx hprn, exec_running hx hhlt,
    exec_eq_of_fault_ne hx, exec_params hx, exec_phase hx⟩
  obtain ⟨e, rfl⟩ | hc := exec_next hx
  · rfl
  · exact hc.reg_eq_of_not_destination hi hj h7

end Sys2Proof.Machine
end

section
/-! ALU (spec/43_alu.md): the ALU's checks in order, MUL from its operand bytes to a whole step, and why no program
reaches UnsupportedOperation. -/

namespace Sys2Proof

variable {ε : Type} {rd : Nat → Except ε Byte}

/- ### What makes the decoder raise -/

theorem readF2_eq_error_iff {mk : Byte → Instr} {e : ε} : readF2 rd mk = .error e ↔ rd 1 = .error e := by
  cases h1 : rd 1 <;> simp [readF2, h1]

theorem readF3_eq_error_iff {mk : Byte → Byte → Instr} {e : ε} :
    readF3 rd mk = .error e ↔ rd 1 = .error e ∨ ∃ b, rd 1 = .ok b ∧ rd 2 = .error e := by
  cases h1 : rd 1 <;> cases h2 : rd 2 <;> simp [readF3, h1, h2]

/-- A handler's operand reads raise only what a read raises. -/
theorem read_error_of_readOperands {h : Opcode} {e : ε} (he : readOperands rd h = .error e) :
    ∃ k, rd k = .error e := by
  cases h with
  | hlt => cases he
  | prn | push | pop => exact ⟨1, readF2_eq_error_iff.1 he⟩
  | ldi | mul =>
    obtain h1 | ⟨-, -, h2⟩ := readF3_eq_error_iff.1 he
    · exact ⟨1, h1⟩
    · exact ⟨2, h2⟩

/-- The decoder raises what a read raises, or that a byte has no handler (R90). -/
theorem decodeFrom_error {o : OpcodeMap} {unknown : Byte → ε} {e : ε} (he : decodeFrom o unknown rd = .error e) :
    (∃ k, rd k = .error e) ∨ ∃ op, e = unknown op := by
  unfold decodeFrom at he
  split at he
  · next h0 =>
    cases he
    exact .inl ⟨0, h0⟩
  · next op _ =>
    split at he
    · cases he
      exact .inr ⟨op, rfl⟩
    · exact .inl (read_error_of_readOperands he)

end Sys2Proof

namespace Sys2Proof.Machine

/- ### The ALU's interface -/

/-- The operation name is checked before the indices (R153). -/
theorem alu_other (name : String) (d a : Nat) (s : State) :
    alu (.other name) d a s = .error (.unsupportedOperation (.other name)) := rfl

theorem AluOp.compute_of_add_or_mul {op : AluOp} (h : op = .add ∨ op = .mul) : ∃ f, op.compute = some f := by
  obtain rfl | rfl := h
  · exact ⟨addN, rfl⟩
  · exact ⟨mulN, rfl⟩

section
variable {op : AluOp} {f : Nat → Nat → Nat → Nat} {d a : Nat} {s : State} (hf : op.compute = some f)
include hf

/-- The destination index of a supported operation is checked first (R150). -/
theorem alu_of_dest_ge (hd : 8 ≤ d) : alu op d a s = .error (.invalidRegister d) := by
  simp [alu, hf, hd, bind, Except.bind]

/-- The source index of a supported operation is checked after the destination index (R150). -/
theorem alu_of_source_ge (hd : d < 8) (ha : 8 ≤ a) : alu op d a s = .error (.invalidRegister a) := by
  simp [alu, hf, hd, ha, bind, Except.bind]

/-- A supported operation on two registers writes its result to the destination alone (R150). -/
theorem alu_of_compute (di ai : RegIdx) :
    alu op di ai s = .ok (s.setReg di (f s.params.N (s.reg di) (s.reg ai))) :=
  alu_ok.2 ⟨f, di, ai, hf, rfl, rfl, rfl⟩

end

/-- Settles O43: the three checks one by one, and the result once both indices name registers. -/
theorem aluFollowsItsInterface : Obligations.AluFollowsItsInterface := by
  refine ⟨alu_other, fun op d a s hop hd => ?_, fun op d a s hop hd ha => ?_, fun d a s => ⟨?_, ?_⟩⟩
  · obtain ⟨f, hf⟩ := AluOp.compute_of_add_or_mul hop
    exact alu_of_dest_ge hf hd
  · obtain ⟨f, hf⟩ := AluOp.compute_of_add_or_mul hop
    exact alu_of_source_ge hf hd ha
  · exact alu_of_compute (f := addN) rfl d a
  · exact alu_of_compute (f := mulN) rfl d a

/- ### MUL after its operand reads, and a whole step -/

/-- Settles O40: both index checks pass, so MUL commits, and `Commit.mul` reads both factors from the old state. -/
theorem mulMultipliesModuloTwoToTheN : Obligations.MulMultipliesModuloTwoToTheN :=
  fun _ a b ha hb => exec_of_commit (.mul a b ⟨a.toNat, ha⟩ ⟨b.toNat, hb⟩ rfl rfl)

/-- MUL raises for its first bad operand, the destination before the source (R154, R150). -/
theorem mulCore_of_ge {s : State} {a b : Byte} (h : 8 ≤ a.toNat ∨ 8 ≤ b.toNat) :
    mulCore a b s = .error (.invalidRegister (if 8 ≤ a.toNat then a.toNat else b.toNat)) := by
  have halu : alu .mul a.toNat b.toNat s =
      .error (.invalidRegister (if 8 ≤ a.toNat then a.toNat else b.toNat)) := by
    split
    · next ha => exact alu_of_dest_ge (f := mulN) rfl ha
    · next ha => exact alu_of_source_ge (f := mulN) rfl (Nat.lt_of_not_le ha) (h.resolve_left ha)
  simp [mulCore, halu, bind, Except.bind]

theorem exec_mul_of_ge {s : State} {a b : Byte} (h : 8 ≤ a.toNat ∨ 8 ≤ b.toNat) :
    exec (.mul a b) s = .next (raise s (.invalidRegister (if 8 ≤ a.toNat then a.toNat else b.toNat))) :=
  complete_next.2 (.inr ⟨_, mulCore_of_ge h, rfl⟩)

/-- Settles O47: the operand reads come first, so a byte outside memory is reported before the indices are checked. -/
theorem stepAtMulFollowsItsRule : Obligations.StepAtMulFollowsItsRule := by
  intro s hs hw hp ho
  have hfetch : fetch s = readF3 (codeByte s) .mul := fetch_of_opcode (h := .mul) hw hp ho
  refine ⟨fun hend => ?_, fun hin hab => ?_, fun hin ha hb => ?_⟩
  · exact step_of_fetch_error hs (hfetch.trans (readF3_error hend))
  · exact (step_of_fetch_ok hs (hfetch.trans (readF3_ok hin))).trans (exec_mul_of_ge hab)
  · exact (step_of_fetch_ok hs (hfetch.trans (readF3_ok hin))).trans (mulMultipliesModuloTwoToTheN s _ _ ha hb)

/- ### What a step raises, and by whom -/

/-- What an instruction does after its operand reads, one handler for each instruction (R13). -/
def handler (i : Instr) (s : State) : Except FaultInfo State :=
  match i with
  | .hlt => .ok { s with running := false, pc := 0 }
  | .ldi r imm => ldiCore r imm s
  | .prn r => prnCore r s
  | .mul a b => mulCore a b s
  | .push r => pushCore r s
  | .pop r => popCore r s

theorem exec_eq_complete_handler (i : Instr) (s : State) : exec i s = complete s (handler i s) := by
  cases i <;> rfl

theorem commit_of_handler_ok {i : Instr} {s t : State} (h : handler i s = .ok t) : Commit s i t := by
  cases i with
  | hlt =>
    cases h
    exact .hlt
  | ldi r imm =>
    obtain ⟨i, hr, rfl⟩ := ldiCore_ok.1 h
    exact .ldi r imm i hr
  | prn r =>
    obtain ⟨i, hr, rfl⟩ := prnCore_ok.1 h
    exact .prn r i hr
  | mul a b =>
    obtain ⟨i, j, ha, hb, rfl⟩ := mulCore_ok.1 h
    exact .mul a b i j ha hb
  | push r =>
    obtain ⟨i, hr, ha, hv, rfl⟩ := pushCore_ok.1 h
    exact .push r i hr ha hv
  | pop r =>
    obtain ⟨i, hr, ha, rfl⟩ := popCore_ok.1 h
    exact .pop r i hr ha

/-- Every fault a step leaves was raised by its fetch or by the fetched instruction's handler. -/
theorem step_fault_raised {s t : State} {k : FaultKind} (h : step s = .next t) (hk : t.fault = some k) :
    ∃ e : FaultInfo, e.kind = k ∧ (fetch s = .error e ∨ ∃ i, fetch s = .ok i ∧ handler i s = .error e) := by
  obtain ⟨⟨-, hf⟩, ⟨e, he, rfl⟩ | ⟨i, hi, hx⟩⟩ := step_next h
  · exact ⟨e, Option.some.inj hk, .inl he⟩
  · rw [exec_eq_complete_handler] at hx
    obtain hok | ⟨e, he, rfl⟩ := complete_next.1 hx
    · have hnone : t.fault = none := (commit_of_handler_ok hok).fault_eq.trans hf
      simp [hnone] at hk
    · exact ⟨e, Option.some.inj hk, .inr ⟨i, hi, he⟩⟩

/- ### Which kinds an operation cannot raise -/

/-- A computation that does not raise a fault of kind `k`. -/
def NeverRaises {α : Type} (k : FaultKind) (r : Except FaultInfo α) : Prop := ∀ e, r = .error e → e.kind ≠ k

namespace NeverRaises

variable {k : FaultKind}

theorem ok {α : Type} (v : α) : NeverRaises k (.ok v : Except FaultInfo α) := nofun

theorem error {α : Type} {e : FaultInfo} (h : e.kind ≠ k) : NeverRaises k (.error e : Except FaultInfo α) := by
  rintro _ ⟨⟩
  exact h

/-- A sequence raises only what its parts raise. -/
theorem bind {α β : Type} {r : Except FaultInfo α} {f : α → Except FaultInfo β} (hr : NeverRaises k r)
    (hf : ∀ v, NeverRaises k (f v)) : NeverRaises k (r >>= f) := by
  cases r with
  | error e => exact error (hr e rfl)
  | ok v => exact hf v

/-- The index check raises InvalidRegister only (R23). -/
theorem regCheck (hk : .invalidRegister ≠ k) (i : Nat) : NeverRaises k (regCheck i) := by
  unfold Machine.regCheck
  split
  · exact ok _
  · exact error hk

/-- A read raises OutOfBounds only (R52). -/
theorem memRead (hk : .outOfBounds ≠ k) (m : Memory) (a : Nat) : NeverRaises k (memRead m a) := by
  unfold Machine.memRead
  split
  · exact ok _
  · exact error hk

/-- A write raises OutOfBounds or ValueOutOfRange only (R53). -/
theorem memWrite (hb : .outOfBounds ≠ k) (hv : .valueOutOfRange ≠ k) (m : Memory) (a v : Nat) :
    NeverRaises k (memWrite m a v) := by
  unfold Machine.memWrite
  split
  · split
    · exact ok _
    · exact error hv
  · exact error hb

/-- A supported operation raises InvalidRegister only (R150). -/
theorem alu {op : AluOp} {f : Nat → Nat → Nat → Nat} (hf : op.compute = some f) (hk : .invalidRegister ≠ k)
    (d a : Nat) (s : State) : NeverRaises k (alu op d a s) := by
  simp only [Machine.alu, hf]
  exact (regCheck hk d).bind fun di => (regCheck hk a).bind fun ai => ok _

/-- A fetch raises OutOfBounds or UnknownOpcode only (R189, rows 1 to 4). -/
theorem fetch (hb : .outOfBounds ≠ k) (hu : .unknownOpcode ≠ k) (s : State) : NeverRaises k (fetch s) := by
  intro e he
  obtain ⟨j, hj⟩ | ⟨op, rfl⟩ := decodeFrom_error he
  · exact memRead hb s.mem (s.pc.toNat + j) e hj
  · exact hu

/-- A handler raises InvalidRegister, OutOfBounds or ValueOutOfRange only (R189, rows 5 to 8): the one operation it
asks the ALU for is MUL. -/
theorem handler (hi : .invalidRegister ≠ k) (hb : .outOfBounds ≠ k) (hv : .valueOutOfRange ≠ k) (i : Instr)
    (s : State) : NeverRaises k (handler i s) := by
  cases i with
  | hlt => exact ok _
  | ldi r imm => exact (regCheck hi r.toNat).bind fun j => ok _
  | prn r => exact (regCheck hi r.toNat).bind fun j => ok _
  | mul a b => exact (alu (f := mulN) rfl hi a.toNat b.toNat s).bind fun t => ok _
  | push r =>
    exact (regCheck hi r.toNat).bind fun j => (memWrite hb hv s.mem (pushAddr s) (pushValue j s)).bind fun m => ok _
  | pop r => exact (regCheck hi r.toNat).bind fun j => (memRead hb s.mem s.sp).bind fun v => ok _

end NeverRaises

/-- Settles O31: the fault of a step was raised by its fetch or by a handler, and neither raises that kind. -/
theorem unsupportedOperationStopsAndNoProgramReachesIt :
    Obligations.UnsupportedOperationStopsAndNoProgramReachesIt := by
  refine ⟨fun name d a s => ⟨alu_other name d a s, complete_next.2 (.inr ⟨_, alu_other name d a s, rfl⟩)⟩,
    fun s t hstep hk => ?_⟩
  obtain ⟨e, hkind, he | ⟨i, -, he⟩⟩ := step_fault_raised hstep hk
  · exact NeverRaises.fetch (k := .unsupportedOperation) nofun nofun s e he hkind
  · exact NeverRaises.handler (k := .unsupportedOperation) nofun nofun nofun i s e he hkind

end Sys2Proof.Machine
end

section
/-! Stack (spec/44_stack.md): the stack-pointer controller, PUSH and POP from their operand byte to a whole step, where
they trap, and what a PUSH and a POP do to each other. -/

namespace Sys2Proof.Machine

/- ### The stack-pointer controller -/

/-- The decrement as the spec writes it (R166): adding 2^N - 1 is subtracting 1 modulo 2^N. -/
theorem natCast_decN (N v : Nat) : (decN N v : Int) = ((v : Int) - 1) % 2 ^ N := by
  have hsub : ((v + (2 ^ N - 1) : Nat) : Int) = (v : Int) - 1 + 2 ^ N := by
    push_cast [Nat.cast_sub (Nat.one_le_two_pow (n := N))]
    ring
  rw [decN, wrapN, Int.natCast_emod, hsub, Nat.cast_pow, Nat.cast_ofNat, Int.add_emod_right]

theorem decN_zero (N : Nat) : decN N 0 = 2 ^ N - 1 := by
  have := Nat.two_pow_pos N
  rw [decN, Nat.zero_add, wrapN_of_lt (by omega)]

theorem incN_two_pow_sub_one (N : Nat) : incN N (2 ^ N - 1) = 0 := by
  rw [incN, Nat.sub_add_cancel (Nat.two_pow_pos N), wrapN, Nat.mod_self]

/-- The increment undoes the decrement, at the wrap from 0 too (R166, R167, R172 (b)). -/
theorem incN_decN {N v : Nat} (hv : v < 2 ^ N) : incN N (decN N v) = v := by
  by_cases h0 : v = 0
  · rw [h0, decN_zero, incN_two_pow_sub_one]
  · rw [decN_of_pos h0 hv, incN, Nat.sub_add_cancel (Nat.pos_of_ne_zero h0), wrapN_of_lt hv]

/-- Only the increment of 255, and only on a machine wider than 8 bits, leaves the range of addresses (R167). -/
theorem incN_ge_of_lt {N v : Nat} (hv : v < 256) (h : 256 ≤ incN N v) : 8 < N ∧ v = 255 ∧ incN N v = 256 := by
  have hle : incN N v ≤ v + 1 := Nat.mod_le _ _
  have hwide : 2 ^ 8 < 2 ^ N := h.trans_lt (wrapN_lt N (v + 1))
  exact ⟨(Nat.pow_lt_pow_iff_right (by decide)).1 hwide, by omega, by omega⟩

/-- The stored-to address as the spec gives it (R166, R168). -/
theorem natCast_pushAddr (s : State) : (pushAddr s : Int) = ((s.x[7] : Int) - 1) % 2 ^ s.params.N :=
  natCast_decN s.params.N s.sp

/- ### The values PUSH stores and POP leaves, by the operand's number -/

theorem pushValue_mk (s : State) {r : Nat} (h : r < 8) :
    pushValue ⟨r, h⟩ s = if r = 7 then pushAddr s else s.x[r] := by
  simp only [pushValue, Fin.ext_iff]
  rfl

theorem popSp_mk (s : State) (w : Nat) {r : Nat} (h : r < 8) :
    popSp ⟨r, h⟩ w s = ((if r = 7 then w else s.x[7]) + 1) % 2 ^ s.params.N := by
  simp only [popSp, Fin.ext_iff]
  rfl

/-- PUSH 7 stores the address it has just checked, so its value passes the check too (R168 corner case (a)). -/
theorem pushValue_lt {s : State} {i : RegIdx} (ha : pushAddr s < 256) (hv : i = 7 ∨ s.reg i < 256) :
    pushValue i s < 256 := by
  rw [pushValue]
  split
  · exact ha
  · next hi => exact hv.resolve_left hi

/- ### PUSH and POP after their operand reads -/

/-- Settles O41: the three checks pass, so PUSH commits. -/
theorem pushStoresBelowTheStackPointer : Obligations.PushStoresBelowTheStackPointer := by
  intro s r h ha hv
  rw [← pushValue_mk s h] at hv ⊢
  exact ⟨exec_of_commit (.push r ⟨r.toNat, h⟩ rfl ha hv), natCast_pushAddr s⟩

/-- Settles O42: the two checks pass, so POP commits. -/
theorem popLoadsAndRaisesTheStackPointer : Obligations.PopLoadsAndRaisesTheStackPointer := by
  intro s r h hsp
  rw [← popSp_mk s (s.mem.get s.x[7]).toNat h]
  exact exec_of_commit (.pop r ⟨r.toNat, h⟩ rfl hsp)

/-- The index check is PUSH's first one after its operand read (R168). -/
theorem exec_push_of_ge {s : State} {r : Byte} (h : 8 ≤ r.toNat) :
    exec (.push r) s = .next (raise s (.invalidRegister r.toNat)) := by
  have hc : pushCore r s = .error (.invalidRegister r.toNat) := by simp [pushCore, h, bind, Except.bind]
  exact complete_next.2 (.inr ⟨_, hc, rfl⟩)

/-- The index check is POP's first one after its operand read (R171). -/
theorem exec_pop_of_ge {s : State} {r : Byte} (h : 8 ≤ r.toNat) :
    exec (.pop r) s = .next (raise s (.invalidRegister r.toNat)) := by
  have hc : popCore r s = .error (.invalidRegister r.toNat) := by simp [popCore, h, bind, Except.bind]
  exact complete_next.2 (.inr ⟨_, hc, rfl⟩)

/-- Past the index check PUSH raises what its store raises (R168). -/
theorem exec_push_of_memWrite_error {s : State} {r : Byte} {e : FaultInfo} (h : r.toNat < 8)
    (hm : memWrite s.mem (pushAddr s) (pushValue ⟨r.toNat, h⟩ s) = .error e) :
    exec (.push r) s = .next (raise s e) := by
  have hc : pushCore r s = .error e := by simp [pushCore, h, hm, bind, Except.bind]
  exact complete_next.2 (.inr ⟨_, hc, rfl⟩)

theorem exec_push_of_addr_ge {s : State} {r : Byte} (h : r.toNat < 8) (ha : 256 ≤ pushAddr s) :
    exec (.push r) s = .next (raise s (.outOfBounds (pushAddr s))) :=
  exec_push_of_memWrite_error h (memWrite_of_ge ha)

theorem exec_push_of_value_ge {s : State} {r : Byte} (h : r.toNat < 8) (ha : pushAddr s < 256)
    (hv : 256 ≤ pushValue ⟨r.toNat, h⟩ s) :
    exec (.push r) s = .next (raise s (.valueOutOfRange (pushValue ⟨r.toNat, h⟩ s))) :=
  exec_push_of_memWrite_error h (memWrite_of_value_ge ha hv)

/-- Past the index check POP raises what its load raises (R171). -/
theorem exec_pop_of_sp_ge {s : State} {r : Byte} (h : r.toNat < 8) (hsp : 256 ≤ s.sp) :
    exec (.pop r) s = .next (raise s (.outOfBounds s.sp)) := by
  have hc : popCore r s = .error (.outOfBounds s.sp) := by simp [popCore, h, hsp, bind, Except.bind]
  exact complete_next.2 (.inr ⟨_, hc, rfl⟩)

/-- Settles O58: the address check of PUSH, its value check, and the address check of POP. -/
theorem stackTrapsOnWideRegisters : Obligations.StackTrapsOnWideRegisters := by
  refine fun s r h => ⟨exec_push_of_addr_ge h, fun ha h7 hv => ?_, exec_pop_of_sp_ge h⟩
  exact exec_push_of_value_ge h ha (by rwa [pushValue_mk, if_neg h7])

/- ### A whole step -/

/-- Settles O48: the operand read comes first, then the index, then the address, which is the one number congruent to
x[7] - 1, and the value last. -/
theorem stepAtPushFollowsItsRule : Obligations.StepAtPushFollowsItsRule := by
  intro s sp' hs hw hp ho hsp
  obtain rfl : sp' = pushAddr s := Int.natCast_inj.1 (hsp.trans (natCast_pushAddr s).symm)
  have hfetch : fetch s = readF2 (codeByte s) .push := fetch_of_opcode (h := .push) hw hp ho
  have hstep (hin : s.pc.toNat + 1 < 256) : step s = exec (.push (s.mem.get (s.pc.toNat + 1))) s :=
    step_of_fetch_ok hs (hfetch.trans (readF2_ok hin))
  refine ⟨fun hend => ?_, fun hin hr => ?_, fun hin hr => ⟨fun ha => ?_, fun ha hv => ?_, fun ha hv => ?_⟩⟩
  · exact step_of_fetch_error hs (hfetch.trans (readF2_error hend))
  · exact (hstep hin).trans (exec_push_of_ge hr)
  · exact (hstep hin).trans (exec_push_of_addr_ge hr ha)
  · exact (hstep hin).trans (exec_push_of_value_ge hr ha (by rwa [pushValue_mk]))
  · exact (hstep hin).trans (pushStoresBelowTheStackPointer s _ hr ha hv).1

/-- Settles O49: the operand read comes first, then the index, and the load's address last. -/
theorem stepAtPopFollowsItsRule : Obligations.StepAtPopFollowsItsRule := by
  intro s hs hw hp ho
  have hfetch : fetch s = readF2 (codeByte s) .pop := fetch_of_opcode (h := .pop) hw hp ho
  have hstep (hin : s.pc.toNat + 1 < 256) : step s = exec (.pop (s.mem.get (s.pc.toNat + 1))) s :=
    step_of_fetch_ok hs (hfetch.trans (readF2_ok hin))
  refine ⟨fun hend => ?_, fun hin hr => ?_, fun hin hr hsp => ?_, fun hin hr hsp => ?_⟩
  · exact step_of_fetch_error hs (hfetch.trans (readF2_error hend))
  · exact (hstep hin).trans (exec_pop_of_ge hr)
  · exact (hstep hin).trans (exec_pop_of_sp_ge hr hsp)
  · exact (hstep hin).trans (popLoadsAndRaisesTheStackPointer s _ hr hsp)

/- ### The frame of PUSH -/

theorem Commit.reg_eq_of_push {s t : State} {r : Byte} {j : RegIdx} (h : Commit s (.push r) t) (hj : j ≠ 7) :
    t.reg j = s.reg j := by
  cases h with
  | push _ i hr ha hv => exact (State.setReg_reg _ _ _ j).trans (if_neg hj.symm)

/-- Settles O53: register 7 and one byte by the commit, and the rest as for every instruction that is not PRN or HLT. -/
theorem pushFrame : Obligations.PushFrame := by
  intro s t r hm hx
  refine ⟨fun j hj => ?_, fun a ha => ?_, exec_out hx nofun, exec_running hx nofun, exec_eq_of_fault_ne hx,
    exec_params hx, exec_phase hx⟩
  · obtain ⟨e, rfl⟩ | hc := exec_next hx
    · rfl
    · exact hc.reg_eq_of_push hj
  · obtain ⟨e, rfl⟩ | hc := exec_next hx
    · rfl
    · by_contra hne
      obtain ⟨-, -, haddr⟩ := hc.push_of_get_ne hm hne
      exact ha haddr

/- ### The decrement and the increment at work -/

/-- Settles O54: at N = 8 the modulus is the number of memory cells. -/
theorem stackPointerDecrement : Obligations.StackPointerDecrement :=
  ⟨natCast_decN, decN_zero, fun _ _ h ha => exec_push_of_addr_ge h ha, fun _ => wrapN_lt 8 _⟩

/-- A POP whose address passes the check commits: it has no value check, and the increment has none (R167, R171). -/
theorem exists_pop_commit {s : State} {r : Byte} (h : r.toNat < 8) (hsp : s.sp < 256) :
    ∃ t, Commit s (.pop r) t :=
  ⟨_, .pop r ⟨r.toNat, h⟩ rfl hsp⟩

theorem exists_push_commit {s : State} {r : Byte} (h : r.toNat < 8) (ha : pushAddr s < 256)
    (hv : r.toNat = 7 ∨ s.x[r.toNat] < 256) : ∃ t, Commit s (.push r) t :=
  ⟨_, .push r ⟨r.toNat, h⟩ rfl ha (pushValue_lt ha (hv.imp_left Fin.ext))⟩

theorem Commit.push_sp {s t : State} {r : Byte} (h : Commit s (.push r) t) : t.sp = pushAddr s := by
  cases h with
  | push _ i hr ha hv => exact (State.setReg_reg _ _ _ _).trans (if_pos rfl)

theorem Commit.pop_sp {s t : State} {r : Byte} (h : Commit s (.pop r) t) :
    t.sp = incN s.params.N (if r.toNat = 7 then (s.mem.get s.sp).toNat else s.sp) := by
  cases h with
  | pop _ i hr ha =>
    have hi : i = Config.spIdx ↔ r.toNat = 7 := by rw [hr, Fin.ext_iff]; rfl
    calc ((s.setReg _ _).setReg Config.spIdx _).reg Config.spIdx
        = popSp i (zextN (s.mem.get s.sp)) s := (State.setReg_reg _ _ _ _).trans (if_pos rfl)
      _ = incN s.params.N _ := by simp only [popSp, zextN, hi]

/-- A POP that committed loaded from an address in memory (R171). -/
theorem Commit.pop_addr_lt {s t : State} {r : Byte} (h : Commit s (.pop r) t) : s.sp < 256 := by
  cases h with
  | pop _ i hr ha => exact ha

/-- Settles O55: what POP increments is below 256, as an address or as a byte, and the decrement of 256 is 255. -/
theorem stackPointerIncrement : Obligations.StackPointerIncrement := by
  refine ⟨fun _ _ => rfl, incN_two_pow_sub_one, fun s r h hsp => ?_, fun s t r hx hge hf => ?_,
    fun t q h hN h7 => ⟨?_, fun hv => ?_⟩⟩
  · obtain ⟨t, hc⟩ := exists_pop_commit h hsp
    exact ⟨t, exec_of_commit hc, hc.fault_eq⟩
  · obtain ⟨e, rfl⟩ | hc := exec_next hx
    · cases hf
    · have hlt : (if r.toNat = 7 then (s.mem.get s.sp).toNat else s.sp) < 256 := by
        split
        · exact (s.mem.get s.sp).isLt
        · exact hc.pop_addr_lt
      have hsp : t.reg 7 = incN s.params.N _ := hc.pop_sp
      rw [hsp] at hge ⊢
      exact incN_ge_of_lt hlt hge
  · exact exec_pop_of_sp_ge h h7.ge
  · have hfit : 256 < 2 ^ t.params.N := Nat.pow_lt_pow_right (a := 2) (m := 8) (by decide) hN
    have ha : pushAddr t = 255 := (congrArg _ h7).trans (decN_of_pos (by decide) hfit)
    obtain ⟨u, hc⟩ := exists_push_commit h (by omega) hv
    exact ⟨u, exec_of_commit hc, hc.push_sp.trans ha, hc.fault_eq⟩

/- ### PUSH and then POP -/

theorem Commit.push_lt {s t : State} {r : Byte} (hr : r.toNat < 8) (h : Commit s (.push r) t) :
    pushAddr s < 256 ∧ pushValue ⟨r.toNat, hr⟩ s < 256 := by
  cases h with
  | push _ i hi ha hv =>
    obtain rfl : i = ⟨r.toNat, hr⟩ := Fin.ext hi.symm
    exact ⟨ha, hv⟩

/-- The byte on top of the stack after a PUSH is the whole value, which fits a cell (R168, R172 (a)). -/
theorem Commit.push_top {s t : State} {r : Byte} (hm : s.mem.wf = true) (hr : r.toNat < 8)
    (h : Commit s (.push r) t) : (t.mem.get t.sp).toNat = pushValue ⟨r.toNat, hr⟩ s := by
  rw [h.push_get hm hr, if_pos h.push_sp, BitVec.toNat_ofNat, Nat.mod_eq_of_lt (h.push_lt hr).2]

/-- A POP into a register other than 7 leaves the loaded byte there (R171). -/
theorem Commit.pop_reg {s t : State} {r : Byte} (hr : r.toNat < 7) (h : Commit s (.pop r) t) :
    t.x[r.toNat] = (s.mem.get s.sp).toNat := by
  have hr8 : r.toNat < 8 := by omega
  have h7 : Config.spIdx ≠ ⟨r.toNat, hr8⟩ := fun h => hr.ne (Fin.ext_iff.1 h).symm
  cases h with
  | pop _ i hi ha =>
    obtain rfl : i = ⟨r.toNat, hr8⟩ := Fin.ext hi.symm
    calc ((s.setReg _ _).setReg Config.spIdx _).reg ⟨r.toNat, hr8⟩
        = (s.setReg _ _).reg ⟨r.toNat, hr8⟩ := (State.setReg_reg _ _ _ _).trans (if_neg h7)
      _ = (s.mem.get s.sp).toNat := (State.setReg_reg _ _ _ _).trans (if_pos rfl)

/-- Settles O56: the POP loads from the address the PUSH stored to, and its increment undoes the PUSH's decrement. -/
theorem pushThenPopRoundTrip : Obligations.PushThenPopRoundTrip := by
  intro s t a b ha hb hInv hx hf
  obtain ⟨-, hreg, -, -, hm, -, -⟩ := hInv
  have ha8 : a.toNat < 8 := by omega
  obtain ⟨e, rfl⟩ | hpush := exec_next hx
  · cases hf
  · have hsp : t.sp < 256 := hpush.push_sp ▸ (hpush.push_lt ha8).1
    obtain ⟨u, hpop⟩ := exists_pop_commit (show b.toNat < 8 by omega) hsp
    refine ⟨u, exec_of_commit hpop, hpop.fault_eq.trans hf, ?_, ?_⟩
    · rw [hpop.pop_reg hb, hpush.push_top hm ha8, pushValue_mk, if_neg ha.ne]
    · calc u.sp
          = incN t.params.N t.sp := by rw [hpop.pop_sp, if_neg hb.ne]
        _ = incN s.params.N (pushAddr s) := by rw [hpush.params_eq, hpush.push_sp]
        _ = s.sp := incN_decN (hreg 7)

/- ### The stack of an 8-bit machine -/

/-- Settles O57: every 8-bit value is an address and fits a cell, so no check of PUSH or POP fails and both commit. -/
theorem eightBitStackNeverFaults : Obligations.EightBitStackNeverFaults := by
  intro s r hInv hN h
  obtain ⟨-, hreg, -⟩ := hInv
  have hbyte {v : Nat} (hv : v < 2 ^ s.params.N) : v < 256 := by rwa [hN] at hv
  obtain ⟨t, hpush⟩ := exists_push_commit h (hbyte (wrapN_lt _ _)) (.inr (hbyte (hreg ⟨r.toNat, h⟩)))
  obtain ⟨u, hpop⟩ := exists_pop_commit h (hbyte (hreg 7))
  exact ⟨⟨t, exec_of_commit hpush, hpush.fault_eq, hpush.pc_eq⟩,
    u, exec_of_commit hpop, hpop.fault_eq, hpop.pc_eq⟩

end Sys2Proof.Machine
end

section
/-! Exceptions (spec/60_exceptions.md): the fault an operation raises, the order of a step's checks, the occasions of
each kind, and the codes. -/

namespace Sys2Proof.Machine

/- ### Entry and codes -/

/-- Settles O34: the six rows of the table of codes. -/
theorem faultCodesAreTheTable : Obligations.FaultCodesAreTheTable :=
  ⟨rfl, rfl, rfl, rfl, rfl, rfl⟩

/-- Settles O29: a commit leaves `fault` at none, so the step raised, and the state it leaves is Faulted. -/
theorem faultingStepChangesOnlyFault : Obligations.FaultingStepChangesOnlyFault := by
  intro s t k hstep hk
  refine ⟨?_, step_of_faulted (lifecycle_eq_faulted.2 hk)⟩
  obtain ⟨⟨-, hf⟩, -⟩ := step_next hstep
  obtain ⟨e, rfl⟩ | ⟨i, -, hc⟩ := step_next_commit hstep
  · rw [← hk]
    rfl
  · rw [hc.fault_eq, hf] at hk
    cases hk

/- ### The dispatcher's fault -/

/-- A byte without a handler ends the fetch before any operand is read (R90, R184). -/
theorem fetch_of_dispatch_none {s : State} (hp : s.pc.toNat < 256)
    (hd : dispatch s.params.opc (s.mem.get s.pc.toNat) = none) :
    fetch s = .error (.unknownOpcode (s.mem.get s.pc.toNat)) := by
  simp [fetch, decodeFrom, codeByte, hp, hd]

/-- A byte with a handler makes the fetch that handler's operand reads, whatever the opcode bytes are (R114). -/
theorem fetch_of_dispatch_some {s : State} {h : Opcode} (hp : s.pc.toNat < 256)
    (hd : dispatch s.params.opc (s.mem.get s.pc.toNat) = some h) : fetch s = readOperands (codeByte s) h := by
  simp [fetch, decodeFrom, codeByte, hp, hd]

/-- Settles O27: legal opcode bytes leave 0x00 out (R8), so in either case the byte has no handler. -/
theorem unregisteredOpcodeFaults : Obligations.UnregisteredOpcodeFaults := by
  intro s hs ⟨_, _, hzero⟩ hp hbyte
  have hmem : s.mem.get s.pc.toNat ∉ s.params.opc.bytes := hbyte.elim id fun h0 => h0 ▸ hzero
  have hfetch := fetch_of_dispatch_none hp (dispatch_none.2 hmem)
  exact ⟨hfetch, step_of_fetch_error hs hfetch⟩

/- ### The index check -/

section
variable {α : Type} {i : Nat} (f : RegIdx → Except FaultInfo α)

theorem regCheck_bind_of_ge (h : 8 ≤ i) : regCheck i >>= f = .error (.invalidRegister i) := by
  rw [regCheck_of_ge h]
  rfl

theorem regCheck_bind_of_lt (h : i < 8) : regCheck i >>= f = f ⟨i, h⟩ := by
  rw [regCheck_of_lt h]
  rfl

end

/-- Settles O30: each handler begins with the index check, and MUL's two checks are the ALU's. -/
theorem invalidRegisterOperandFaults : Obligations.InvalidRegisterOperandFaults :=
  ⟨fun _ => regCheck_of_ge,
    fun _ _ _ h => ⟨exec_ldi_of_ge h, exec_prn_of_ge h, exec_push_of_ge h, exec_pop_of_ge h,
      regCheck_bind_of_ge _ h, regCheck_bind_of_ge _ h, regCheck_bind_of_ge _ h, regCheck_bind_of_ge _ h⟩,
    fun _ _ _ h => ⟨exec_mul_of_ge h, mulCore_of_ge h⟩⟩

/- ### The kind an operation raises -/

/-- The kind a computation raises, if it raises (R188). -/
def raisedKind {α : Type} : Except FaultInfo α → Option FaultKind
  | .ok _ => none
  | .error e => some e.kind

@[simp] theorem raisedKind_ok {α : Type} (v : α) : raisedKind (.ok v) = none := rfl

@[simp] theorem raisedKind_error {α : Type} (e : FaultInfo) :
    raisedKind (.error e : Except FaultInfo α) = some e.kind := rfl

/-- Committing after a computation raises nothing more (R13). -/
theorem raisedKind_bind_ok {α β : Type} (r : Except FaultInfo α) (f : α → β) :
    raisedKind (r >>= fun v => .ok (f v)) = raisedKind r := by
  cases r <;> rfl

theorem raisedKind_regCheck (i : Nat) :
    raisedKind (regCheck i) = if 8 ≤ i then some .invalidRegister else none := by
  split
  · next h => rw [regCheck_of_ge h]; rfl
  · next h => rw [regCheck_of_lt (Nat.lt_of_not_le h)]; rfl

theorem raisedKind_memRead (m : Memory) (a : Nat) :
    raisedKind (memRead m a) = if 256 ≤ a then some .outOfBounds else none := by
  split
  · next h => rw [memRead_of_ge h]; rfl
  · next h => rw [memRead_of_lt (Nat.lt_of_not_le h)]; rfl

theorem raisedKind_memWrite (m : Memory) (a v : Nat) :
    raisedKind (memWrite m a v) =
      if 256 ≤ a then some .outOfBounds else if 256 ≤ v then some .valueOutOfRange else none := by
  split
  · next ha => rw [memWrite_of_ge ha]; rfl
  · next ha =>
    split
    · next hv => rw [memWrite_of_value_ge (Nat.lt_of_not_le ha) hv]; rfl
    · next hv => rw [memWrite_ok.2 ⟨Nat.lt_of_not_le ha, Nat.lt_of_not_le hv, rfl⟩]; rfl

/-- What stands after an index check is reached with a register. -/
theorem raisedKind_regCheck_bind {α : Type} {i : Nat} {f : RegIdx → Except FaultInfo α} {k : Option FaultKind}
    (h : ∀ hi : i < 8, raisedKind (f ⟨i, hi⟩) = k) :
    raisedKind (regCheck i >>= f) = if 8 ≤ i then some .invalidRegister else k := by
  split
  · next hi => rw [regCheck_bind_of_ge f hi]; rfl
  · next hi => rw [regCheck_bind_of_lt f (Nat.lt_of_not_le hi), h]

/-- The value PUSH stores, as the last row of R189's table writes it. -/
def storedValue (r : Nat) (s : State) : Nat := if r = 7 then pushAddr s else s.regAt r

theorem decN_sp (s : State) : decN s.params.N s.sp = pushAddr s := rfl

theorem ite_eq_storedValue (r : Nat) (s : State) :
    (if r = 7 then pushAddr s else s.regAt r) = storedValue r s := rfl

theorem storedValue_eq_pushValue {s : State} {r : Nat} (h : r < 8) : storedValue r s = pushValue ⟨r, h⟩ s := by
  rw [pushValue_mk, storedValue, State.regAt, dif_pos h]
  rfl

/-- The checks of each handler in their order (R189, rows 5 to 8). -/
def handlerFault (s : State) : Instr → Option FaultKind
  | .hlt => none
  | .ldi r _ => if 8 ≤ r.toNat then some .invalidRegister else none
  | .prn r => if 8 ≤ r.toNat then some .invalidRegister else none
  | .mul a b => if 8 ≤ a.toNat then some .invalidRegister else if 8 ≤ b.toNat then some .invalidRegister else none
  | .push r =>
    if 8 ≤ r.toNat then some .invalidRegister
    else if 256 ≤ pushAddr s then some .outOfBounds
    else if 256 ≤ storedValue r.toNat s then some .valueOutOfRange
    else none
  | .pop r =>
    if 8 ≤ r.toNat then some .invalidRegister else if 256 ≤ s.sp then some .outOfBounds else none

theorem raisedKind_mulCore (a b : Byte) (s : State) : raisedKind (mulCore a b s) = handlerFault s (.mul a b) := by
  rw [mulCore, raisedKind_bind_ok]
  exact raisedKind_regCheck_bind fun _ => (raisedKind_bind_ok _ _).trans (raisedKind_regCheck b.toNat)

theorem raisedKind_pushCore (r : Byte) (s : State) : raisedKind (pushCore r s) = handlerFault s (.push r) :=
  raisedKind_regCheck_bind fun hr => by
    rw [raisedKind_bind_ok, raisedKind_memWrite, storedValue_eq_pushValue hr]

theorem raisedKind_popCore (r : Byte) (s : State) : raisedKind (popCore r s) = handlerFault s (.pop r) :=
  raisedKind_regCheck_bind fun _ => (raisedKind_bind_ok _ _).trans (raisedKind_memRead s.mem s.sp)

/-- A handler raises the kind of its first check that fails. -/
theorem raisedKind_handler (i : Instr) (s : State) : raisedKind (handler i s) = handlerFault s i := by
  cases i with
  | hlt => rfl
  | ldi r imm => exact (raisedKind_bind_ok _ _).trans (raisedKind_regCheck r.toNat)
  | prn r => exact (raisedKind_bind_ok _ _).trans (raisedKind_regCheck r.toNat)
  | mul a b => exact raisedKind_mulCore a b s
  | push r => exact raisedKind_pushCore r s
  | pop r => exact raisedKind_popCore r s

/- ### The order of a step's checks -/

/-- The fault after a step is what its fetch and then the fetched instruction's handler raise. -/
theorem step_fault_eq_raisedKind {s t : State} (h : step s = .next t) :
    t.fault = raisedKind (fetch s >>= fun i => handler i s) := by
  obtain ⟨⟨-, hf⟩, ⟨e, he, rfl⟩ | ⟨i, hi, hx⟩⟩ := step_next h
  · rw [he]
    rfl
  · rw [exec_eq_complete_handler] at hx
    rw [hi]
    change t.fault = raisedKind (handler i s)
    obtain hok | ⟨e, he, rfl⟩ := complete_next.1 hx
    · rw [hok]
      exact (commit_of_handler_ok hok).fault_eq.trans hf
    · rw [he]
      rfl

section
variable {α : Type} (s : State) (f : Instr → Except FaultInfo α)

/-- Format F2 has one read that can fail (R189, row 3). -/
theorem raisedKind_readF2_bind (mk : Byte → Instr) :
    raisedKind (readF2 (codeByte s) mk >>= f) =
      if 256 ≤ s.pc.toNat + 1 then some .outOfBounds
      else raisedKind (f (mk (s.mem.get (s.pc.toNat + 1)))) := by
  split
  · next h => rw [readF2_error h]; rfl
  · next h => rw [readF2_ok (Nat.lt_of_not_le h)]; rfl

/-- Format F3 has two reads that can fail, in ascending order (R189, rows 3 and 4). -/
theorem raisedKind_readF3_bind (mk : Byte → Byte → Instr) :
    raisedKind (readF3 (codeByte s) mk >>= f) =
      if 256 ≤ s.pc.toNat + 1 then some .outOfBounds
      else if 256 ≤ s.pc.toNat + 2 then some .outOfBounds
      else raisedKind (f (mk (s.mem.get (s.pc.toNat + 1)) (s.mem.get (s.pc.toNat + 2)))) := by
  split
  · next h => rw [readF3_error (h.trans (Nat.le_succ _))]; rfl
  · split
    · next h => rw [readF3_error h]; rfl
    · next h => rw [readF3_ok (Nat.lt_of_not_le h)]; rfl

end

/-- The kind of the first row whose check fails. -/
def firstKind (rows : List (Bool × FaultKind)) : Option FaultKind := (rows.find? (·.1)).map (·.2)

theorem firstKind_nil : firstKind [] = none := rfl

theorem firstKind_cons (b : Bool) (k : FaultKind) (rows : List (Bool × FaultKind)) :
    firstKind ((b, k) :: rows) = if b then some k else firstKind rows := by
  cases b <;> rfl

theorem reportedFault_eq_firstKind (s : State) : reportedFault s = firstKind (faultTable s) := rfl

/-- Rows 1 and 2 are the fetch of the opcode byte and its dispatch; for each handler the rows that name it are its
operand reads and then its own checks, in the order in which it makes them. -/
theorem reportedFault_eq_raisedKind (s : State) :
    reportedFault s = raisedKind (fetch s >>= fun i => handler i s) := by
  simp only [reportedFault_eq_firstKind, faultTable, firstKind_cons, firstKind_nil, decide_eq_true_eq, decN_sp,
    ite_eq_storedValue]
  by_cases hp : 256 ≤ s.pc.toNat
  · rw [if_pos hp, fetch_of_ge hp]
    rfl
  · rw [if_neg hp]
    cases hd : dispatch s.params.opc (s.mem.get s.pc.toNat) with
    | none =>
      rw [if_pos rfl, fetch_of_dispatch_none (Nat.lt_of_not_le hp) hd]
      rfl
    | some h =>
      rw [fetch_of_dispatch_some (Nat.lt_of_not_le hp) hd]
      cases h with
      | hlt => simp [readOperands, handler, bind, Except.bind]
      | prn | push | pop =>
        simp [readOperands, raisedKind_readF2_bind, raisedKind_handler, handlerFault]
      | ldi | mul => simp [readOperands, raisedKind_readF3_bind, raisedKind_handler, handlerFault]

/-- Settles O28: the step raises what its fetch and its handler raise, and the table lists their checks in order. -/
theorem faultsAreReportedInTheTablesOrder : Obligations.FaultsAreReportedInTheTablesOrder :=
  fun s _ hstep => (step_fault_eq_raisedKind hstep).trans (reportedFault_eq_raisedKind s).symm

/- ### The occasions of each kind -/

/-- The fault of a step is its fetch's, or that of a check of the fetched instruction's handler. -/
theorem step_fault_occasion {s t : State} {k : FaultKind} (h : step s = .next t) (hk : t.fault = some k) :
    raisedKind (fetch s) = some k ∨ ∃ i, fetch s = .ok i ∧ handlerFault s i = some k := by
  rw [step_fault_eq_raisedKind h] at hk
  cases hf : fetch s with
  | error e =>
    rw [hf] at hk
    exact .inl hk
  | ok i =>
    rw [hf] at hk
    exact .inr ⟨i, rfl, (raisedKind_handler i s).symm.trans hk⟩

theorem NeverRaises.raisedKind_ne {α : Type} {k : FaultKind} {r : Except FaultInfo α} (h : NeverRaises k r) :
    raisedKind r ≠ some k := by
  cases r with
  | ok v => nofun
  | error e => exact fun hk => h e rfl (Option.some.inj hk)

/-- ValueOutOfRange is PUSH's last check: the address has passed, so the value is not the stack pointer's (R168). -/
theorem handlerFault_valueOutOfRange {s : State} {i : Instr} (h : handlerFault s i = some .valueOutOfRange) :
    ∃ (r : Byte) (hr : r.toNat < 8), i = .push r ∧ 256 ≤ s.reg ⟨r.toNat, hr⟩ := by
  cases i with
  | push r =>
    obtain ⟨hr, ha, hv⟩ : r.toNat < 8 ∧ pushAddr s < 256 ∧ 256 ≤ storedValue r.toNat s := by
      simpa [handlerFault, ite_eq_iff] using h
    rw [storedValue_eq_pushValue hr] at hv
    exact ⟨r, hr, rfl, le_of_not_gt fun hsmall => hv.not_gt (pushValue_lt ha (.inr hsmall))⟩
  | hlt | ldi | prn | mul | pop => simp [handlerFault, ite_eq_iff] at h

/-- Only a register of more than 8 bits holds 256 or more (R185, R181 (d)). -/
theorem eight_lt_of_ge {N v : Nat} (hlt : v < 2 ^ N) (hge : 256 ≤ v) : 8 < N :=
  (Nat.pow_lt_pow_iff_right (a := 2) (n := 8) (by decide)).1 (hge.trans_lt hlt)

/-- Settles O32: of all checks PUSH's last alone raises this kind, and under the invariant its value fits N bits. -/
theorem valueOutOfRangeNeedsWideRegisters : Obligations.ValueOutOfRangeNeedsWideRegisters := by
  refine ⟨fun _ _ _ => memWrite_of_value_ge, fun s t hInv hstep hk => ?_⟩
  obtain ⟨-, hreg, -⟩ := hInv
  obtain hf | ⟨i, hi, hh⟩ := step_fault_occasion hstep hk
  · exact absurd hf (NeverRaises.fetch (k := .valueOutOfRange) nofun nofun s).raisedKind_ne
  · obtain ⟨r, hr, rfl, hv⟩ := handlerFault_valueOutOfRange hh
    exact ⟨eight_lt_of_ge (hreg _) hv, r, hr, hi, hv⟩

/-- A fetch that raises OutOfBounds read the opcode byte or an operand byte past the end of memory, at an offset the
handler's format fixes (R181 (a) to (c)). -/
theorem fetch_outOfBounds {s : State} (h : raisedKind (fetch s) = some .outOfBounds) :
    256 ≤ s.pc.toNat ∨ ∃ op, dispatch s.params.opc (s.mem.get s.pc.toNat) = some op ∧
      (s.pc.toNat = 255 ∧ op ≠ .hlt ∨ s.pc.toNat = 254 ∧ (op = .ldi ∨ op = .mul)) := by
  refine or_iff_not_imp_left.2 fun hp => ?_
  cases hd : dispatch s.params.opc (s.mem.get s.pc.toNat) with
  | none =>
    rw [fetch_of_dispatch_none (Nat.lt_of_not_le hp) hd] at h
    cases h
  | some op =>
    refine ⟨op, rfl, ?_⟩
    rw [fetch_of_dispatch_some (Nat.lt_of_not_le hp) hd] at h
    cases op with
    | hlt => cases h
    | prn | push | pop =>
      have hend : ¬ s.pc.toNat + 1 < 256 := fun hin => by
        rw [readOperands, readF2_ok hin] at h
        cases h
      exact .inl ⟨by omega, nofun⟩
    | ldi | mul =>
      have hend : ¬ s.pc.toNat + 2 < 256 := fun hin => by
        rw [readOperands, readF3_ok hin] at h
        cases h
      obtain h255 | h254 : s.pc.toNat = 255 ∨ s.pc.toNat = 254 := by omega
      · exact .inl ⟨h255, nofun⟩
      · exact .inr ⟨h254, by simp⟩

/-- Past its operand reads an instruction raises OutOfBounds only at its stack access (R181 (d)). -/
theorem handlerFault_outOfBounds {s : State} {i : Instr} (h : handlerFault s i = some .outOfBounds) :
    ∃ r, (i = .push r ∧ 256 ≤ pushAddr s) ∨ (i = .pop r ∧ 256 ≤ s.reg 7) := by
  cases i with
  | push r =>
    have ha : r.toNat < 8 ∧ 256 ≤ pushAddr s := by simpa [handlerFault, ite_eq_iff] using h
    exact ⟨r, .inl ⟨rfl, ha.2⟩⟩
  | pop r =>
    have ha : r.toNat < 8 ∧ 256 ≤ s.sp := by simpa [handlerFault, ite_eq_iff] using h
    exact ⟨r, .inr ⟨rfl, ha.2⟩⟩
  | hlt | ldi | prn | mul => simp [handlerFault, ite_eq_iff] at h

/-- Settles O33: a fetch passes the end of memory at pc = 256, or by an operand byte of a handler that has it; a handler
passes it only by a stack pointer of 256 or more, which the invariant bounds by 2^N. -/
theorem outOfBoundsOccasionsAreComplete : Obligations.OutOfBoundsOccasionsAreComplete := by
  intro s t hInv hstep hk
  obtain ⟨-, hreg, -, hpc, -⟩ := hInv
  obtain hf | ⟨i, hi, hh⟩ := step_fault_occasion hstep hk
  · obtain hp | ⟨op, hd, ⟨h255, hop⟩ | ⟨h254, hop⟩⟩ := fetch_outOfBounds hf
    · exact .inl (Nat.le_antisymm hpc hp)
    · exact .inr (.inl ⟨h255, op, h255 ▸ hd, hop⟩)
    · exact .inr (.inr (.inl ⟨h254, op, h254 ▸ hd, hop⟩))
  · obtain ⟨r, ⟨rfl, ha⟩ | ⟨rfl, ha⟩⟩ := handlerFault_outOfBounds hh
    · exact .inr (.inr (.inr ⟨eight_lt_of_ge (wrapN_lt _ _) ha, r, .inl ⟨hi, ha⟩⟩))
    · exact .inr (.inr (.inr ⟨eight_lt_of_ge (hreg 7) ha, r, .inr ⟨hi, ha⟩⟩))

end Sys2Proof.Machine
end

section
/-! Reset and load (spec/70_reset_and_hazards.md): what the loader's writes leave in memory, when they raise, the launch
state, and the invariant across the events. -/

namespace Sys2Proof.Machine

/- ### The loader's writes -/

/-- A byte always passes the value check, so inside memory the loader's write is `Memory.set` (R53, R213). -/
theorem memWrite_toNat {m : Memory} {a : Nat} (b : Byte) (ha : a < 256) :
    memWrite m a b.toNat = .ok (m.set a b) :=
  memWrite_ok.2 ⟨ha, b.isLt, by rw [BitVec.ofNat_toNat, BitVec.setWidth_eq]⟩

/-- A load that begins inside memory writes its first byte and goes on at the next address. -/
theorem loadFrom_cons_of_lt {k : Nat} {b : Byte} {bs : List Byte} {m : Memory} (hk : k < 256) :
    loadFrom k (b :: bs) m = loadFrom (k + 1) bs (m.set k b) := by
  rw [loadFrom, memWrite_toNat b hk]

/-- A load with a byte left at the end of memory raises there and writes nothing more. -/
theorem loadFrom_cons_of_ge {k : Nat} {b : Byte} {bs : List Byte} {m : Memory} (hk : 256 ≤ k) :
    loadFrom k (b :: bs) m = (m, some (.outOfBounds k)) := by
  rw [loadFrom, memWrite_of_ge hk]

/-- Every cell after a load from address `k`: the byte of its index from `k` on, and the old one where there is none. -/
theorem loadFrom_get {k a : Nat} {bs : List Byte} {m : Memory} (hm : m.wf = true) (ha : a < 256) :
    (loadFrom k bs m).1.get a = if k ≤ a then bs[a - k]?.getD (m.get a) else m.get a := by
  induction bs generalizing k m with
  | nil => simp [loadFrom]
  | cons b bs ih =>
    by_cases hk : k < 256
    · rw [loadFrom_cons_of_lt hk, ih (Memory.wf_set hm hk), Memory.get_set hm]
      obtain hlt | rfl | hgt := Nat.lt_trichotomy a k
      · rw [if_neg (by omega), if_neg (by omega), if_neg (by omega)]
      · simp
      · have hidx : a - k = a - (k + 1) + 1 := by omega
        rw [if_pos (by omega), if_neg (by omega), if_pos (by omega), hidx, List.getElem?_cons_succ]
    · rw [loadFrom_cons_of_ge (Nat.le_of_not_lt hk), if_neg (by omega)]

/-- A load raises exactly when its bytes do not fit, and then at the first address past the end of memory (R213). -/
theorem loadFrom_fault {k : Nat} {bs : List Byte} {m : Memory} (hk : k ≤ 256) :
    (loadFrom k bs m).2 = if k + bs.length ≤ 256 then none else some (.outOfBounds 256) := by
  induction bs generalizing k m with
  | nil => exact (if_pos hk).symm
  | cons b bs ih =>
    obtain hlt | rfl := Nat.lt_or_eq_of_le hk
    · rw [loadFrom_cons_of_lt hlt, ih hlt, List.length_cons, Nat.succ_add_eq_add_succ]
    · rw [loadFrom_cons_of_ge le_rfl, if_neg (by simp)]

/- ### The event `load` -/

theorem load_of_idle {s : State} (bytes : List Byte) (hl : s.lifecycle = .idle) (hp : s.phase ≠ .loaded) :
    load bytes s = .next (loaded bytes s) := by
  simp [load, hl, hp]

/-- The treatment 93 U8 gives a second load. -/
theorem load_of_loaded {s : State} (bytes : List Byte) (hl : s.lifecycle = .idle) (hp : s.phase = .loaded) :
    load bytes s = .refused .secondLoad := by
  simp [load, hl, hp]

/-- Only an Idle machine is loaded (R213). -/
theorem lifecycle_eq_idle_of_load {bytes : List Byte} {s t : State} (h : load bytes s = .next t) :
    s.lifecycle = .idle := by
  unfold load at h
  split at h
  · assumption
  all_goals cases h

/-- `load` into a machine just reset is accepted. -/
theorem load_resetFor (p : Params) (bytes : List Byte) :
    load bytes (State.resetFor p) = .next (loaded bytes (State.resetFor p)) :=
  load_of_idle bytes (lifecycle_eq_idle.2 ⟨rfl, rfl, nofun⟩) nofun

theorem loaded_fault_of_le {bytes : List Byte} (s : State) (h : bytes.length ≤ 256) :
    (loaded bytes s).fault = none := by
  rw [loaded, loadFrom_fault (Nat.zero_le _), if_pos (by omega)]
  rfl

theorem loaded_fault_of_gt {bytes : List Byte} (s : State) (h : 256 < bytes.length) :
    (loaded bytes s).fault = some .outOfBounds := by
  rw [loaded, loadFrom_fault (Nat.zero_le _), if_neg (by omega)]
  rfl

/-- A load that did not raise leaves an Idle machine Idle, so that it can be started (R110). -/
theorem loaded_lifecycle_of_le {bytes : List Byte} {s : State} (hr : s.running = false) (h : bytes.length ≤ 256) :
    (loaded bytes s).lifecycle = .idle :=
  lifecycle_eq_idle.2 ⟨hr, loaded_fault_of_le s h, nofun⟩

/-- The memory at reset holds zeros, so past the loaded bytes every cell is 0 (R213, R214). -/
theorem memRead_loaded_resetFor (p : Params) (bytes : List Byte) {a : Nat} (ha : a < 256) :
    memRead (loaded bytes (State.resetFor p)).mem a = .ok (bytes[a]?.getD 0) :=
  memRead_ok.2 ⟨ha, loadFrom_get rfl ha⟩

/-- Settles O2: the writes reach every cell in order, and raise exactly when a 257th byte is left; a machine left
without a fault is Idle and already loaded, one left with a fault is not Idle. -/
theorem loadWritesTheProgram : Obligations.LoadWritesTheProgram := by
  intro p bytes
  refine ⟨loaded bytes (State.resetFor p), load_resetFor p bytes, fun _ => memRead_loaded_resetFor p bytes,
    rfl, rfl, rfl, rfl, rfl, fun hle => ⟨loaded_fault_of_le _ hle, fun more => ?_⟩, fun hgt => ?_⟩
  · exact load_of_loaded more (loaded_lifecycle_of_le rfl hle) rfl
  · have hf := loaded_fault_of_gt (State.resetFor p) hgt
    have hl := lifecycle_eq_faulted.2 hf
    exact ⟨hf, congrArg _ (start_of_not_idle (by simp [hl]))⟩

/- ### The launch state -/

/-- Settles O3: the load leaves the machine Idle, and `start` changes nothing of what reset and load have set but
`running`. -/
theorem launchStateIsTheTable : Obligations.LaunchStateIsTheTable := by
  intro p bytes hle
  have hstart := start_of_idle (loaded_lifecycle_of_le (s := State.resetFor p) rfl hle)
  exact ⟨loaded bytes (State.resetFor p), _, load_resetFor p bytes, congrArg Host.Outcome.next hstart,
    State.resetFor_reg p, rfl, rfl, loaded_fault_of_le _ hle, rfl, fun _ => memRead_loaded_resetFor p bytes⟩

/- ### The invariant across the events -/

/-- Only an Idle machine is loaded, so the clause on a running machine does not bind the history `load` notes. -/
theorem load_inv {bytes : List Byte} {s t : State} (hs : s.Inv) (h : load bytes s = .next t) : t.Inv := by
  obtain ⟨hp, hreg, hout, hpc, hmem, -, hstop⟩ := hs
  obtain ⟨hr, -, -⟩ := lifecycle_eq_idle.1 (lifecycle_eq_idle_of_load h)
  obtain rfl := load_next h
  exact ⟨hp, hreg, hout, hpc, loadFrom_wf hmem, fun hr' => absurd (hr.symm.trans hr') nofun, hstop⟩

theorem start_inv {s : State} (hs : s.Inv) : (start s).Inv := by
  obtain h | h := start_eq s
  · rwa [h]
  · obtain ⟨hp, hreg, hout, hpc, hmem, -, -⟩ := hs
    rw [h]
    exact ⟨hp, hreg, hout, hpc, hmem, fun _ => rfl, nofun⟩

/-- Settles O10: one lemma per event. -/
theorem everyEventKeepsTheInvariant : Obligations.EveryEventKeepsTheInvariant := by
  intro e s t hs h
  cases e with
  | reset =>
    obtain ⟨hp, -⟩ := hs
    cases h
    exact resetFor_inv hp
  | load bytes => exact load_inv hs h
  | start =>
    cases h
    exact start_inv hs

end Sys2Proof.Machine
end

section
/-! Load on a machine that is not Idle (spec/93_implementation_defined.md U8). -/

namespace Sys2Proof.Machine

/-- A Running, Faulted or Halted machine is not Idle (R110). -/
theorem lifecycle_ne_idle {s : State} (h : s.isRunning ∨ s.fault ≠ none ∨ s.phase = .started) :
    s.lifecycle ≠ .idle := by
  intro hl
  obtain ⟨hr, hf, hp⟩ := lifecycle_eq_idle.1 hl
  obtain ⟨hr', -⟩ | hf' | hp' := h
  · exact absurd (hr.symm.trans hr') nofun
  · exact hf' hf
  · exact hp hp'

/-- The treatment 93 U8 gives a load that comes too late. -/
theorem load_of_not_idle {s : State} (bytes : List Byte) (h : s.lifecycle ≠ .idle) :
    load bytes s = .refused .loadNotIdle := by
  unfold load
  split
  · contradiction
  all_goals rfl

/-- Settles O5: each premise shuts out Idle, the one lifecycle state in which `load` is accepted. -/
theorem loadRefusedUnlessIdle : Obligations.LoadRefusedUnlessIdle :=
  fun _ bytes h => load_of_not_idle bytes (lifecycle_ne_idle h)

end Sys2Proof.Machine
end
